-- ==== Sys2Proof/Word.lean ====
section
/-! DEFINITION. The word types of the core and the two readings of a word (spec/00_scope.md R3, R5, R7).
Data words are 32 bits in two's complement and instruction words are 48 bits. -/

namespace Sys2Proof

/-- An `XLEN`-bit pattern: a register, a memory cell, the program counter (R3: `XLEN = 32`). -/
abbrev Word := BitVec 32

/-- An instruction word of `ILEN = XLEN + 16 = 48` bits (R5). -/
abbrev InstrWord := BitVec 48

/-- A 4-bit register field of an instruction word, read as an unsigned number (R55). -/
abbrev RegField := BitVec 4

/-- `wrap(z)` of R7: the `XLEN`-bit two's-complement value congruent to `z` modulo `2^XLEN`. -/
abbrev wrap (z : Int) : Word := BitVec.ofInt 32 z

/-- `signed(v)` of R7: the pattern read as a two's-complement integer. -/
abbrev signed (v : Word) : Int := v.toInt

end Sys2Proof
end

