-- ==== Sys2Proof/Config.lean ====
section
/-! DEFINITION. The parameters of the implementation (spec/00_scope.md section 4). The spec leaves no value of the
hardware open (spec/40_execution_cycle.md R103), so there is no free value here. `PROG_LEN` is a run-time input and
lives in State; `ADDR_PREFIXES` is an argument of the assembler, with the default below. -/

namespace Sys2Proof.Config

/-- `N`, the number of registers (R1). -/
abbrev numRegs : Nat := 4

/-- `M`, the number of data-memory cells and the greatest length of a program (R2, R4). -/
abbrev memCells : Nat := 32

/-- `XLEN`, the width of every datum (R3). -/
abbrev xlen : Nat := 32

/-- `ILEN`, the width of an instruction word (R5). -/
abbrev ilen : Nat := xlen + 16

/-- The least integer an `XLEN`-bit two's-complement value can be (R3, R23). -/
abbrev minInt : Int := -(2 ^ 31)

/-- The greatest integer an `XLEN`-bit two's-complement value can be (R3, R23). -/
abbrev maxInt : Int := 2 ^ 31 - 1

/-- The default of `ADDR_PREFIXES`, the empty set (R6). The parameter is OPEN: the assembler takes it as an argument. -/
abbrev defaultPrefixes : List Char := []

end Sys2Proof.Config
end

