-- ==== Sys2Proof/Syntax.lean ====
section
/-! DEFINITION. The decoded instruction (spec/30_encoding.md R52), one constructor per row of spec/opcode_table.json,
with the kinds, formats and opcodes it is classified by (R50 to R53, R57). -/

namespace Sys2Proof

/-- The 16 rows of the opcode map (R57), one for each value of the 4-bit opcode field. -/
inductive Op where
  | unrec0 | loadLit | loadMem | store | move | add | sub | and | or
  | branch | bezero | bneg | nop | halt | unrecE | unrecF
  deriving DecidableEq, Repr

/-- The 14 kinds of a decoded instruction (R52): the three rows UNREC.0, UNREC.E and UNREC.F are one kind. -/
inductive Kind where
  | loadl | loadm | store | move | add | sub | and | or
  | branch | bezero | bneg | nop | halt | unrec
  deriving DecidableEq, Repr

/-- The six formats (R53): which fields of the word a kind uses. -/
inductive Format where
  | z | t | rl | ra | rr | rrr
  deriving DecidableEq, Repr

/-- A decoded instruction. Register fields are the 4 raw bits, valid or not (R55). `imm` is the signed value of the
low 32 bits (R54). The three UNREC rows carry no operand (R52). -/
inductive Instr where
  /-- UNREC.0, opcode 0x0 (R142). -/
  | unrec0
  /-- LOAD.lit, opcode 0x1: `ra` destination, `imm` literal (R110). -/
  | loadLit (ra : RegField) (imm : Int)
  /-- LOAD.mem, opcode 0x2: `ra` destination, `imm` data address (R111). -/
  | loadMem (ra : RegField) (imm : Int)
  /-- STORE, opcode 0x3: `ra` source register, `imm` data address (R112). -/
  | store (ra : RegField) (imm : Int)
  /-- MOVE, opcode 0x4: `ra` destination, `rb` source (R113). -/
  | move (ra rb : RegField)
  /-- ADD, opcode 0x5 (R120). -/
  | add (ra rb rc : RegField)
  /-- SUB, opcode 0x6 (R121). -/
  | sub (ra rb rc : RegField)
  /-- AND, opcode 0x7 (R122). -/
  | and (ra rb rc : RegField)
  /-- OR, opcode 0x8 (R123). -/
  | or (ra rb rc : RegField)
  /-- BRANCH, opcode 0x9: `imm` target (R131). -/
  | branch (imm : Int)
  /-- BEZERO, opcode 0xA: `imm` target (R132). -/
  | bezero (imm : Int)
  /-- BNEG, opcode 0xB: `imm` target (R133). -/
  | bneg (imm : Int)
  /-- NOP, opcode 0xC (R140). -/
  | nop
  /-- HALT, opcode 0xD (R141). -/
  | halt
  /-- UNREC.E, opcode 0xE (R142). -/
  | unrecE
  /-- UNREC.F, opcode 0xF (R142). -/
  | unrecF
  deriving DecidableEq, Repr

end Sys2Proof
end

