-- ==== Sys2Proof/WellFormed.lean ====
section
/-! DEFINITION. Which terms of `Instr` have an encoding. A register field is 4 bits by its type. The one check is that
`imm` is an `XLEN`-bit signed value (spec/30_encoding.md R54, R72). Operand VALIDITY (a register below `N`, an address
below `M`, a target below `PROG_LEN`) is no part of it: an instruction with an invalid operand decodes and executes as
a no-op (R55, R59; spec/40_execution_cycle.md R97). -/

namespace Sys2Proof

/-- `imm` fits the 32-bit signed field (R54). -/
def immFits (imm : Int) : Bool :=
  decide (Config.minInt ≤ imm) && decide (imm ≤ Config.maxInt)

/-- The instruction has an encoding. -/
def Instr.wellFormed : Instr → Bool
  | .loadLit _ imm => immFits imm
  | .loadMem _ imm => immFits imm
  | .store _ imm => immFits imm
  | .branch imm => immFits imm
  | .bezero imm => immFits imm
  | .bneg imm => immFits imm
  | .move _ _ => true
  | .add _ _ _ => true
  | .sub _ _ _ => true
  | .and _ _ _ => true
  | .or _ _ _ => true
  | .nop => true
  | .halt => true
  | .unrec0 => true
  | .unrecE => true
  | .unrecF => true

end Sys2Proof
end

