-- ==== Sys2Proof/Decode.lean ====
section
/-! DEFINITION. The hardware decoder (spec/30_encoding.md R59) and the encoders (R60), over the field layout of R50 and
the opcode map of R57. The decoder is total: no word is refused. -/

namespace Sys2Proof

/-! The fields of the word (R50). -/

/-- Bits 47:44. -/
def opcodeField (w : InstrWord) : BitVec 4 := w.extractLsb' 44 4

/-- Bits 43:40. -/
def raField (w : InstrWord) : RegField := w.extractLsb' 40 4

/-- Bits 39:36. -/
def rbField (w : InstrWord) : RegField := w.extractLsb' 36 4

/-- Bits 35:32. -/
def rcField (w : InstrWord) : RegField := w.extractLsb' 32 4

/-- Bits 31:0 as a pattern. -/
def immBits (w : InstrWord) : Word := w.extractLsb' 0 32

/-- `imm = signed(w[31:0])` (R54). -/
def immField (w : InstrWord) : Int := signed (immBits w)

/-- The word `{opcode, ra, rb, rc, imm}` (R50). -/
def packWord (opcode : BitVec 4) (ra rb rc : RegField) (imm : Word) : InstrWord :=
  opcode ++ ra ++ rb ++ rc ++ imm

/-! The opcode map (R51, R57, R58). -/

/-- The opcode number of a row. -/
def Op.code : Op → BitVec 4
  | .unrec0 => 0x0#4
  | .loadLit => 0x1#4
  | .loadMem => 0x2#4
  | .store => 0x3#4
  | .move => 0x4#4
  | .add => 0x5#4
  | .sub => 0x6#4
  | .and => 0x7#4
  | .or => 0x8#4
  | .branch => 0x9#4
  | .bezero => 0xA#4
  | .bneg => 0xB#4
  | .nop => 0xC#4
  | .halt => 0xD#4
  | .unrecE => 0xE#4
  | .unrecF => 0xF#4

/-- The row of an opcode number. The last line is 0xF, the one value the lines before it leave. -/
def Op.ofCode (c : BitVec 4) : Op :=
  match c.toNat with
  | 0x0 => .unrec0
  | 0x1 => .loadLit
  | 0x2 => .loadMem
  | 0x3 => .store
  | 0x4 => .move
  | 0x5 => .add
  | 0x6 => .sub
  | 0x7 => .and
  | 0x8 => .or
  | 0x9 => .branch
  | 0xA => .bezero
  | 0xB => .bneg
  | 0xC => .nop
  | 0xD => .halt
  | 0xE => .unrecE
  | _ => .unrecF

/-- The kind of a row (R57). -/
def Op.kind : Op → Kind
  | .unrec0 => .unrec
  | .loadLit => .loadl
  | .loadMem => .loadm
  | .store => .store
  | .move => .move
  | .add => .add
  | .sub => .sub
  | .and => .and
  | .or => .or
  | .branch => .branch
  | .bezero => .bezero
  | .bneg => .bneg
  | .nop => .nop
  | .halt => .halt
  | .unrecE => .unrec
  | .unrecF => .unrec

/-- The format of a kind (R53). -/
def Kind.format : Kind → Format
  | .loadl => .rl
  | .loadm => .ra
  | .store => .ra
  | .move => .rr
  | .add => .rrr
  | .sub => .rrr
  | .and => .rrr
  | .or => .rrr
  | .branch => .t
  | .bezero => .t
  | .bneg => .t
  | .nop => .z
  | .halt => .z
  | .unrec => .z

/-- The format uses field `ra` (R53). -/
def Format.usesRa : Format → Bool
  | .z => false
  | .t => false
  | .rl => true
  | .ra => true
  | .rr => true
  | .rrr => true

/-- The format uses field `rb` (R53). -/
def Format.usesRb : Format → Bool
  | .z => false
  | .t => false
  | .rl => false
  | .ra => false
  | .rr => true
  | .rrr => true

/-- The format uses field `rc` (R53). -/
def Format.usesRc : Format → Bool
  | .z => false
  | .t => false
  | .rl => false
  | .ra => false
  | .rr => false
  | .rrr => true

/-- The format uses field `imm` (R53). -/
def Format.usesImm : Format → Bool
  | .z => false
  | .t => true
  | .rl => true
  | .ra => true
  | .rr => false
  | .rrr => false

/-- The row an instruction belongs to. -/
def Instr.op : Instr → Op
  | .unrec0 => .unrec0
  | .loadLit _ _ => .loadLit
  | .loadMem _ _ => .loadMem
  | .store _ _ => .store
  | .move _ _ => .move
  | .add _ _ _ => .add
  | .sub _ _ _ => .sub
  | .and _ _ _ => .and
  | .or _ _ _ => .or
  | .branch _ => .branch
  | .bezero _ => .bezero
  | .bneg _ => .bneg
  | .nop => .nop
  | .halt => .halt
  | .unrecE => .unrecE
  | .unrecF => .unrecF

/-- The kind of a decoded instruction (R52). -/
def Instr.kind (i : Instr) : Kind := i.op.kind

/-- The mask of every row: only the opcode field selects (R57). -/
def opcodeMask : InstrWord := 0xF00000000000#48

/-- The `match` column of the row (R57). -/
def Op.matchWord (o : Op) : InstrWord := packWord o.code 0 0 0 0

/-! The decoder. -/

/-- `Decode(w)` (R59). -/
def decode (w : InstrWord) : Instr :=
  match Op.ofCode (opcodeField w) with
  | .unrec0 => .unrec0
  | .loadLit => .loadLit (raField w) (immField w)
  | .loadMem => .loadMem (raField w) (immField w)
  | .store => .store (raField w) (immField w)
  | .move => .move (raField w) (rbField w)
  | .add => .add (raField w) (rbField w) (rcField w)
  | .sub => .sub (raField w) (rbField w) (rcField w)
  | .and => .and (raField w) (rbField w) (rcField w)
  | .or => .or (raField w) (rbField w) (rcField w)
  | .branch => .branch (immField w)
  | .bezero => .bezero (immField w)
  | .bneg => .bneg (immField w)
  | .nop => .nop
  | .halt => .halt
  | .unrecE => .unrecE
  | .unrecF => .unrecF

/-! The encoders. -/

/-- The word of an instruction, row by row: the row's opcode, the fields the row uses, zero elsewhere (R50, R53, R57). -/
def encode (i : Instr) : InstrWord :=
  match i with
  | .unrec0 => packWord i.op.code 0 0 0 0
  | .loadLit ra imm => packWord i.op.code ra 0 0 (wrap imm)
  | .loadMem ra imm => packWord i.op.code ra 0 0 (wrap imm)
  | .store ra imm => packWord i.op.code ra 0 0 (wrap imm)
  | .move ra rb => packWord i.op.code ra rb 0 0
  | .add ra rb rc => packWord i.op.code ra rb rc 0
  | .sub ra rb rc => packWord i.op.code ra rb rc 0
  | .and ra rb rc => packWord i.op.code ra rb rc 0
  | .or ra rb rc => packWord i.op.code ra rb rc 0
  | .branch imm => packWord i.op.code 0 0 0 (wrap imm)
  | .bezero imm => packWord i.op.code 0 0 0 (wrap imm)
  | .bneg imm => packWord i.op.code 0 0 0 (wrap imm)
  | .nop => packWord i.op.code 0 0 0 0
  | .halt => packWord i.op.code 0 0 0 0
  | .unrecE => packWord i.op.code 0 0 0 0
  | .unrecF => packWord i.op.code 0 0 0 0

/-- The canonical decoded instruction of the same kind: the three UNREC rows are one kind, whose canonical row is
UNREC.0 (R58, R60). -/
def Instr.canonical (i : Instr) : Instr :=
  if i.kind = .unrec then .unrec0 else i

/-- `Encode` of R60, the encoder the assembler uses: `opcode(UNREC) = 0x0`. -/
def encodeCanonical (i : Instr) : InstrWord := encode i.canonical

/-- Every field the word's kind does not use is zero (R56). -/
def unusedFieldsZero (w : InstrWord) : Bool :=
  let f := (Op.ofCode (opcodeField w)).kind.format
  (f.usesRa || raField w == 0) && (f.usesRb || rbField w == 0)
    && (f.usesRc || rcField w == 0) && (f.usesImm || immBits w == 0)

/-- The instruction the decoder reads from a word of `nbits` bits numbered as spec/opcode_table.json numbers them. An
instruction is one 48-bit word (R50), so `w` is that word, its bits above `nbits` zero. A number that is no 48-bit word
is no instruction. -/
def decodeTableWord (nbits w : Nat) : Option Instr :=
  if nbits ≤ 48 ∧ w < 2 ^ 48 then some (decode (BitVec.ofNat 48 w)) else none

end Sys2Proof
end

