-- ==== Sys2Proof/Machine/State.lean ====
section
/-! DEFINITION. The state of the core (spec/10_state.md R10 to R23), the reasons a move can be turned away, and reset. -/

namespace Sys2Proof.Machine

/-- One cell of the data memory: its index and its value (R13, R31). The smallest addressable unit is the cell. -/
abbrev Cell := Nat × Word

/-- The data memory `Mem` (R13): the listed cells hold their value, every unlisted cell holds 0, the reset value (R22).
Canonical form: indices strictly rising, and no listed cell holds 0. -/
abbrev Memory := List Cell

/-- The canonical form, over the cells that exist: indices rise strictly and stay below `M`, no listed value is 0. -/
abbrev Memory.wf (m : Memory) : Prop :=
  m.Pairwise (fun a b => a.1 < b.1) ∧ ∀ c ∈ m, c.1 < Config.memCells ∧ c.2 ≠ 0

/-- One entry of the trace: the program index and the fetched word (R18). -/
structure TraceEntry where
  pc : Word
  word : InstrWord
  deriving DecidableEq, Repr

/-- The one event of the diagnostic channel, `MALFORMED(pc, word)` (R19). -/
structure Malformed where
  pc : Word
  word : InstrWord
  deriving DecidableEq, Repr

/-- Everything the spec gives the machine. -/
structure State where
  /-- The register file `x[0..N-1]` (R10). -/
  regs : Vector Word Config.numRegs
  /-- The data memory (R13). -/
  mem : Memory
  /-- The program counter, a signed index into the program (R14). -/
  pc : Word
  /-- The halted flag (R15). -/
  halted : Bool
  /-- The program store; its length is `PROG_LEN` (R4, R16). -/
  prog : List InstrWord
  /-- The trace, oldest entry first (R18). -/
  trace : List TraceEntry
  /-- The events sent on the diagnostic channel, oldest first (R19). -/
  diag : List Malformed
  deriving DecidableEq, Repr

/-- The core raises no fault of any kind (spec/60_exceptions.md R154), so there is no reason for one. -/
inductive Fault where
  deriving DecidableEq, Repr

/-- Why a move is given no meaning. No refusal below is ever raised by an instruction. -/
inductive Refusal where
  /-- An instruction the model gives no meaning. No arm of exec raises it. Safe: the run stops. -/
  | notModelled (mnemonic : String)
  /-- The loader offers a program longer than `M` (spec/70_reset_and_hazards.md R172). Raised by the load move.
  Safe: the spec has a model refuse such a load. -/
  | programTooLong
  /-- The loader offers a seed pair with an address outside `0..M-1` or a value outside the 32-bit signed range, or
  two pairs with one address (R173). Raised by the seed move. Safe: the spec has a model refuse such a set. -/
  | badSeeds
  /-- A LOAD line whose literal is outside the 32-bit signed range (spec/30_encoding.md R72). Raised by the assembler,
  and by the move that loads source text. Safe: the spec has the assembler refuse the line. -/
  | literalOutOfRange
  /-- The loader offers a second program in one LOAD phase (R171: loading happens once). Raised by the load moves.
  Safe: the spec has no second load, and the run stops. -/
  | alreadyLoaded
  /-- The loader seeds a second time in one LOAD phase (R171: seeding happens once). Raised by the seed move and the seed
  port. Safe: the spec has no second seeding, and the run stops. -/
  | alreadySeeded
  /-- The host acts in a phase that does not allow the move (R171, R175). Raised by the host's moves. Safe: the spec
  gives such a move no meaning. -/
  | outOfPhase
  deriving DecidableEq, Repr

/-- The state after reset, with nothing loaded (R22, R170). -/
def State.reset : State where
  regs := Vector.replicate Config.numRegs 0
  mem := []
  pc := 0
  halted := false
  prog := []
  trace := []
  diag := []

end Sys2Proof.Machine
end

