-- ==== Sys2Proof/Machine/Ops.lean ====
section
/-! DEFINITION. The named operations over the state: registers, memory, program counter, program store, trace and
diagnostic channel, and the status of the core. There is no operation that takes an exception and none that returns
from one: the core has neither (spec/60_exceptions.md R154, R158, R159). What stands in their place is the report of a
malformed instruction, `State.emitMalformed` (R150). -/

namespace Sys2Proof.Machine

/-! Memory (spec/20_memory.md R33). -/

/-- `MemRead(a, 1)`: the value of the cell, 0 if none was written (R33). -/
def Memory.read (m : Memory) (a : Nat) : Word :=
  match m with
  | [] => 0
  | c :: rest => if c.1 = a then c.2 else Memory.read rest a

/-- The list with the cell `a` holding `v`, at its place in the rising order. -/
def Memory.put (m : Memory) (a : Nat) (v : Word) : Memory :=
  match m with
  | [] => [(a, v)]
  | c :: rest =>
    if a < c.1 then (a, v) :: c :: rest
    else if c.1 = a then (a, v) :: rest
    else c :: Memory.put rest a v

/-- `MemWrite(a, 1, v)`: the cell `a` holds `v`, every other cell is as before (R33). Writing 0 removes the entry, which
keeps the canonical form. -/
def Memory.write (m : Memory) (a : Nat) (v : Word) : Memory :=
  if v = 0 then m.filter (fun c => decide (c.1 ≠ a)) else Memory.put m a v

/-! The state's accessors. -/

/-- `x[i]` (spec/00_scope.md R8). -/
def State.reg (s : State) (i : Fin Config.numRegs) : Word := s.regs[i]

/-- `x[i] <- v` (R8). -/
def State.setReg (s : State) (i : Fin Config.numRegs) (v : Word) : State :=
  { s with regs := s.regs.set i v }

/-- `Mem[a]` for a cell that exists (R8). -/
def State.cell (s : State) (a : Fin Config.memCells) : Word := s.mem.read a

/-- `Mem[a] <- v` for a cell that exists (R8). -/
def State.setCell (s : State) (a : Fin Config.memCells) (v : Word) : State :=
  { s with mem := s.mem.write a v }

/-- `PROG_LEN` (spec/00_scope.md R4). -/
def State.progLen (s : State) : Nat := s.prog.length

/-- `pc <- t`. -/
def State.setPc (s : State) (t : Word) : State := { s with pc := t }

/-- The default advance, `pc <- pc + 1` (spec/40_execution_cycle.md R96). -/
def State.advance (s : State) : State := s.setPc (s.pc + 1)

/-- The program counter lies inside the program: `0 <= pc < PROG_LEN`, signed (spec/10_state.md R20). -/
def State.pcInRange (s : State) : Bool :=
  decide (0 ≤ signed s.pc) && decide (signed s.pc < s.progLen)

/-- The three values of the status (R20). -/
inductive Status where
  | running | halted | outOfRange
  deriving DecidableEq, Repr

/-- The status, a function of `halted`, `pc` and `PROG_LEN` (R20). -/
def State.status (s : State) : Status :=
  if s.halted then .halted
  else if s.pcInRange then .running
  else .outOfRange

/-- The instruction word at `pc`, where there is one (spec/40_execution_cycle.md R91). -/
def State.fetch (s : State) : Option InstrWord :=
  if s.pcInRange then s.prog[s.pc.toNat]? else none

/-- `emit Trace(pc, w)` (R92). -/
def State.emitTrace (s : State) (w : InstrWord) : State :=
  { s with trace := s.trace ++ [{ pc := s.pc, word := w }] }

/-- `emit Diag(MALFORMED, pc, w)`, with `pc` and `w` as fetched in this step (spec/44_system.md R142). The program store
does not change and `pc` is not yet updated, so `w` is the word at `pc`. Where `pc` names no word nothing was fetched,
and there is nothing to report. -/
def State.emitMalformed (s : State) : State :=
  match s.fetch with
  | some w => { s with diag := s.diag ++ [{ pc := s.pc, word := w }] }
  | none => s

/-- What the core does in a terminal state: nothing, until reset (spec/40_execution_cycle.md R100). DESIGN CHOICE: the
identity, one of the two forms spec/92_eei_decisions.md D31 allows; log entry 1. -/
def State.hold (s : State) : Host.Outcome State Fault Refusal := .next s

/-- The program with the word `w` at index `i`. A program that ends before `i` is filled up to it with all-zero words. -/
def placeWord (prog : List InstrWord) (i : Nat) (w : InstrWord) : List InstrWord :=
  if i < prog.length then prog.set i w
  else prog ++ List.replicate (i - prog.length) 0 ++ [w]

end Sys2Proof.Machine
end

