-- ==== Sys2Proof/Machine/Flags.lean ====
section
/-! DEFINITION. The ALU and the one flag. The core has no condition codes (spec/10_state.md R17): the two tests the
conditional branches make are of register 0 itself (spec/43_control_transfer.md R132, R133), and the only flag is
`halted` (R15). Arithmetic is computed exactly on integers and reduced by `wrap` at the end (spec/42_arithmetic_logic.md
R124). -/

namespace Sys2Proof.Machine

/-- ADD's result, `wrap(x + y)` (R120). -/
def aluAdd (x y : Word) : Word := wrap (signed x + signed y)

/-- SUB's result, `wrap(x - y)` (R121). -/
def aluSub (x y : Word) : Word := wrap (signed x - signed y)

/-- AND's result, bit by bit (R122). -/
def aluAnd (x y : Word) : Word := x &&& y

/-- OR's result, bit by bit (R123). -/
def aluOr (x y : Word) : Word := x ||| y

/-- The zero test of register 0 (R132). -/
def State.zeroTest (s : State) : Bool := decide (signed (s.reg 0) = 0)

/-- The sign test of register 0 (R133). -/
def State.negTest (s : State) : Bool := decide (signed (s.reg 0) < 0)

/-- `halted <- true` (R141). -/
def State.setHalted (s : State) : State := { s with halted := true }

end Sys2Proof.Machine
end

