-- ==== Sys2Proof/Machine/Operands.lean ====
section
/-! DEFINITION. The operand forms: a register field, a data address, a branch target, each with its validity predicate
(spec/40_execution_cycle.md R93 to R95), and the all-or-nothing rule (R97) said once for each shape of instruction. An
operand resolves to an index that exists or to nothing, so no meaning can touch a register or cell that is not there. -/

namespace Sys2Proof.Machine

/-- `RegValid(r)`: `r < N`, unsigned (R93). -/
def regValid (r : RegField) : Bool := decide (r.toNat < Config.numRegs)

/-- `AddrValid(a)`: `0 <= a < M`, signed (R94). -/
def addrValid (a : Int) : Bool := decide (0 ≤ a) && decide (a < Config.memCells)

/-- `TargetValid(t)`: `0 <= t < PROG_LEN`, signed (R95). -/
def State.targetValid (s : State) (t : Int) : Bool := decide (0 ≤ t) && decide (t < s.progLen)

/-- The register a field names, if it names one (spec/30_encoding.md R55). -/
def regIndex (r : RegField) : Option (Fin Config.numRegs) :=
  if h : r.toNat < Config.numRegs then some ⟨r.toNat, h⟩ else none

/-- The cell an address names, if there is one (spec/20_memory.md R32). -/
def addrIndex (a : Int) : Option (Fin Config.memCells) :=
  if h : 0 ≤ a ∧ a.toNat < Config.memCells then some ⟨a.toNat, h.2⟩ else none

/-- Write `v` to the register `ra` names, then advance. With an invalid register only the advance happens (R97). -/
def State.writeDest (s : State) (ra : RegField) (v : Word) : State :=
  match regIndex ra with
  | some d => (s.setReg d v).advance
  | none => s.advance

/-- Load: a register field and an address (spec/41_data_movement.md R111). -/
def State.loadCell (s : State) (ra : RegField) (imm : Int) : State :=
  match regIndex ra, addrIndex imm with
  | some d, some a => (s.setReg d (s.cell a)).advance
  | _, _ => s.advance

/-- Store: a register field and an address (R112). -/
def State.storeCell (s : State) (ra : RegField) (imm : Int) : State :=
  match regIndex ra, addrIndex imm with
  | some r, some a => (s.setCell a (s.reg r)).advance
  | _, _ => s.advance

/-- One source register, one destination register (R113). -/
def State.unary (s : State) (ra rb : RegField) : State :=
  match regIndex ra, regIndex rb with
  | some d, some a => (s.setReg d (s.reg a)).advance
  | _, _ => s.advance

/-- Two source registers, one destination register: both reads see the old state, the write comes last (R98). -/
def State.binary (s : State) (f : Word → Word → Word) (ra rb rc : RegField) : State :=
  match regIndex ra, regIndex rb, regIndex rc with
  | some d, some a, some b => (s.setReg d (f (s.reg a) (s.reg b))).advance
  | _, _, _ => s.advance

/-- A branch is taken iff its condition holds and its target is valid; a taken branch does not increment afterwards
(spec/43_control_transfer.md R130). -/
def State.branchIf (s : State) (condition : Bool) (imm : Int) : State :=
  if condition && s.targetValid imm then s.setPc (wrap imm) else s.advance

end Sys2Proof.Machine
end

