-- ==== Sys2Proof/Machine/Arithmetic.lean ====
section
/-! DEFINITION. ADD, SUB, AND and OR (spec/42_arithmetic_logic.md). -/

namespace Sys2Proof.Machine

/-- ADD: `x[ra] <- wrap(x[rb] + x[rc])` (R120). -/
def execAdd (ra rb rc : RegField) (s : State) : Host.Outcome State Fault Refusal :=
  .next (s.binary aluAdd ra rb rc)

/-- SUB: `x[ra] <- wrap(x[rb] - x[rc])` (R121). -/
def execSub (ra rb rc : RegField) (s : State) : Host.Outcome State Fault Refusal :=
  .next (s.binary aluSub ra rb rc)

/-- AND: `x[ra] <- x[rb] and x[rc]`, bitwise (R122). -/
def execAnd (ra rb rc : RegField) (s : State) : Host.Outcome State Fault Refusal :=
  .next (s.binary aluAnd ra rb rc)

/-- OR: `x[ra] <- x[rb] or x[rc]`, bitwise (R123). -/
def execOr (ra rb rc : RegField) (s : State) : Host.Outcome State Fault Refusal :=
  .next (s.binary aluOr ra rb rc)

end Sys2Proof.Machine
end

