-- ==== Sys2Proof/Machine/ControlTransfer.lean ====
section
/-! DEFINITION. BRANCH, BEZERO and BNEG (spec/43_control_transfer.md). -/

namespace Sys2Proof.Machine

/-- BRANCH: the condition always holds (R131). -/
def execBranch (imm : Int) (s : State) : Host.Outcome State Fault Refusal :=
  .next (s.branchIf true imm)

/-- BEZERO: the condition is `x[0] = 0` (R132). -/
def execBezero (imm : Int) (s : State) : Host.Outcome State Fault Refusal :=
  .next (s.branchIf s.zeroTest imm)

/-- BNEG: the condition is `x[0] < 0` (R133). -/
def execBneg (imm : Int) (s : State) : Host.Outcome State Fault Refusal :=
  .next (s.branchIf s.negTest imm)

end Sys2Proof.Machine
end

