-- ==== Sys2Proof/Machine/DataMovement.lean ====
section
/-! DEFINITION. LOAD in its two forms, STORE and MOVE (spec/41_data_movement.md). -/

namespace Sys2Proof.Machine

/-- LOADL: `x[ra] <- imm` (R110). -/
def execLoadLit (ra : RegField) (imm : Int) (s : State) : Host.Outcome State Fault Refusal :=
  .next (s.writeDest ra (wrap imm))

/-- LOADM: `x[ra] <- MemRead(imm, 1)` (R111). -/
def execLoadMem (ra : RegField) (imm : Int) (s : State) : Host.Outcome State Fault Refusal :=
  .next (s.loadCell ra imm)

/-- STORE: `MemWrite(imm, 1, x[ra])` (R112). -/
def execStore (ra : RegField) (imm : Int) (s : State) : Host.Outcome State Fault Refusal :=
  .next (s.storeCell ra imm)

/-- MOVE: `x[ra] <- x[rb]` (R113). -/
def execMove (ra rb : RegField) (s : State) : Host.Outcome State Fault Refusal :=
  .next (s.unary ra rb)

end Sys2Proof.Machine
end

