-- ==== Sys2Proof/Machine/System.lean ====
section
/-! DEFINITION. NOP, HALT and the unrecognized instruction in its three rows (spec/44_system.md). -/

namespace Sys2Proof.Machine

/-- NOP: `pc <- pc + 1` (R140). -/
def execNop (s : State) : Host.Outcome State Fault Refusal := .next s.advance

/-- HALT: `halted <- true`, `pc` unchanged (R141). -/
def execHalt (s : State) : Host.Outcome State Fault Refusal := .next s.setHalted

/-- Report the malformed instruction and advance (R142, spec/60_exceptions.md R150). -/
def State.reportAndAdvance (s : State) : State := s.emitMalformed.advance

/-- UNREC.0, opcode 0x0 (R142). -/
def execUnrec0 (s : State) : Host.Outcome State Fault Refusal := .next s.reportAndAdvance

/-- UNREC.E, opcode 0xE (R142). -/
def execUnrecE (s : State) : Host.Outcome State Fault Refusal := .next s.reportAndAdvance

/-- UNREC.F, opcode 0xF (R142). -/
def execUnrecF (s : State) : Host.Outcome State Fault Refusal := .next s.reportAndAdvance

end Sys2Proof.Machine
end

