-- ==== Sys2Proof/Machine/Dispatch.lean ====
section
/-! DEFINITION. One arm per instruction, each one call of its meaning. -/

namespace Sys2Proof.Machine

def exec (i : Instr) (s : State) : Host.Outcome State Fault Refusal :=
  match i with
  | .unrec0 => Sys2Proof.Machine.execUnrec0 s
  | .loadLit ra imm => Sys2Proof.Machine.execLoadLit ra imm s
  | .loadMem ra imm => Sys2Proof.Machine.execLoadMem ra imm s
  | .store ra imm => Sys2Proof.Machine.execStore ra imm s
  | .move ra rb => Sys2Proof.Machine.execMove ra rb s
  | .add ra rb rc => Sys2Proof.Machine.execAdd ra rb rc s
  | .sub ra rb rc => Sys2Proof.Machine.execSub ra rb rc s
  | .and ra rb rc => Sys2Proof.Machine.execAnd ra rb rc s
  | .or ra rb rc => Sys2Proof.Machine.execOr ra rb rc s
  | .branch imm => Sys2Proof.Machine.execBranch imm s
  | .bezero imm => Sys2Proof.Machine.execBezero imm s
  | .bneg imm => Sys2Proof.Machine.execBneg imm s
  | .nop => Sys2Proof.Machine.execNop s
  | .halt => Sys2Proof.Machine.execHalt s
  | .unrecE => Sys2Proof.Machine.execUnrecE s
  | .unrecF => Sys2Proof.Machine.execUnrecF s

end Sys2Proof.Machine
end

