-- ==== Sys2Proof/Machine/Step.lean ====
section
/-! DEFINITION. One turn of the run loop (spec/40_execution_cycle.md R90, R99): the stop test, then fetch, trace,
decode, execute. -/

namespace Sys2Proof.Machine

/-- One turn of the run loop. RUNNING is the only status in which an instruction is processed (R90); in a terminal
state the core holds (R100). -/
def step (s : State) : Host.Outcome State Fault Refusal :=
  match s.status, s.fetch with
  | .running, some w => exec (decode w) (s.emitTrace w)
  | _, _ => s.hold

/-- The index at which `withFetchWord` places its word: `pc` where that is an index a program can have, else 0. -/
def State.placeIndex (s : State) : Nat :=
  if s.pc.toNat < Config.memCells then s.pc.toNat else 0

/-- The state with the instruction word `w` stored where the next step fetches, the core not halted: this stands for the
loader's writing of the program store before the run (spec/70_reset_and_hazards.md R171, R172); log entry 2. -/
def State.withFetchWord (s : State) (_nbits w : Nat) : State :=
  { s with
    pc := BitVec.ofNat 32 s.placeIndex
    halted := false
    prog := placeWord s.prog s.placeIndex (BitVec.ofNat 48 w) }

end Sys2Proof.Machine
end

