-- ==== Sys2Proof/Machine/Assembler.lean ====
section
/-! DEFINITION. The source form of an instruction: the Tokenizer, the Operand Resolver, the assembler and the
disassembler (spec/30_encoding.md sections 7 to 9). A line of text is a list of characters. The hardware never sees
text: this file is the function from a line to an instruction word. -/

namespace Sys2Proof.Machine

/-- A line of source text. -/
abbrev Line := List Char

/-- A token of a line: a run of characters that are not whitespace (R62). -/
abbrev Token := List Char

/-! The Tokenizer (R62, R63). -/

/-- The six whitespace characters: HT, LF, VT, FF, CR and space (R63). -/
def isSpaceChar (c : Char) : Bool :=
  (decide (0x09 ≤ c.toNat) && decide (c.toNat ≤ 0x0D)) || decide (c.toNat = 0x20)

/-- Uppercasing: ASCII `a` to `z` only (R63). -/
def upperChar (c : Char) : Char :=
  if 0x61 ≤ c.toNat ∧ c.toNat ≤ 0x7A then Char.ofNat (c.toNat - 0x20) else c

/-- The line up to its first `#` (R62, step 1). -/
def stripComment (line : Line) : Line := line.takeWhile (fun c => decide (c ≠ '#'))

/-- A token that is not empty. -/
def flushToken (cur : Token) : List Token :=
  match cur with
  | [] => []
  | c :: cs => [c :: cs]

/-- Split at whitespace; `cur` is the token read so far (R62, step 2). -/
def splitTokens (cur : Token) : List Char → List Token
  | [] => flushToken cur
  | c :: cs =>
    if isSpaceChar c then flushToken cur ++ splitTokens [] cs
    else splitTokens (cur ++ [c]) cs

/-- `Tokenize(line)` (R62). -/
def tokenize (line : Line) : List Token :=
  (splitTokens [] (stripComment line)).map (fun t => t.map upperChar)

/-! Numbers (R65). -/

/-- A decimal digit `0` to `9`. -/
def isDigitChar (c : Char) : Bool := decide (0x30 ≤ c.toNat) && decide (c.toNat ≤ 0x39)

/-- The value of a digit. -/
def digitValue (c : Char) : Nat := c.toNat - 0x30

/-- The token without its optional single leading sign, and whether that sign is `-`. -/
def splitSign (t : Token) : Bool × Token :=
  match t with
  | [] => (false, [])
  | c :: rest => if c = '-' then (true, rest) else if c = '+' then (false, rest) else (false, c :: rest)

/-- `IsLiteral(t)`: an optional sign, then one or more digits, then nothing (R65). -/
def isLiteral (t : Token) : Bool :=
  let digits := (splitSign t).2
  !digits.isEmpty && digits.all isDigitChar

/-- The decimal value of a string of digits. -/
def digitsValue (digits : List Char) : Nat :=
  digits.foldl (fun n c => 10 * n + digitValue c) 0

/-- `LitValue(t)` (R65). -/
def litValue (t : Token) : Int :=
  let (negative, digits) := splitSign t
  if negative then -(digitsValue digits : Int) else (digitsValue digits : Int)

/-! The Operand Resolver (R66 to R68). -/

/-- `RegOperand(t)`: the second character decides, 15 stands for an invalid token (R66). -/
def regOperand (t : Token) : RegField :=
  match t with
  | c :: d :: _ =>
    if c = 'R' ∧ isDigitChar d ∧ digitValue d < Config.numRegs then BitVec.ofNat 4 (digitValue d) else 0xF#4
  | _ => 0xF#4

/-- The token without its address prefix, if it has one (R67). -/
def dropPrefix (prefixes : List Char) (t : Token) : Token :=
  match t with
  | [] => []
  | c :: rest => if c ∈ prefixes then rest else c :: rest

/-- `AddrOperand(t)`: -1 stands for an invalid token (R67). -/
def addrOperand (prefixes : List Char) (t : Token) : Int :=
  let u := dropPrefix prefixes t
  if isLiteral u && immFits (litValue u) then litValue u else -1

/-- `TargetOperand(t) = AddrOperand(t)` (R68). -/
def targetOperand (prefixes : List Char) (t : Token) : Int := addrOperand prefixes t

/-! The mnemonics (R64). -/

/-- The 12 mnemonics. -/
inductive Mnemonic where
  | load | store | move | add | sub | and | or | branch | bezero | bneg | nop | halt
  deriving DecidableEq, Repr

/-- The spelling of a mnemonic. -/
def Mnemonic.spelling : Mnemonic → Token
  | .load => ['L', 'O', 'A', 'D']
  | .store => ['S', 'T', 'O', 'R', 'E']
  | .move => ['M', 'O', 'V', 'E']
  | .add => ['A', 'D', 'D']
  | .sub => ['S', 'U', 'B']
  | .and => ['A', 'N', 'D']
  | .or => ['O', 'R']
  | .branch => ['B', 'R', 'A', 'N', 'C', 'H']
  | .bezero => ['B', 'E', 'Z', 'E', 'R', 'O']
  | .bneg => ['B', 'N', 'E', 'G']
  | .nop => ['N', 'O', 'P']
  | .halt => ['H', 'A', 'L', 'T']

/-- All the mnemonics. -/
def Mnemonic.all : List Mnemonic :=
  [.load, .store, .move, .add, .sub, .and, .or, .branch, .bezero, .bneg, .nop, .halt]

/-- The mnemonic a token spells exactly (R64). -/
def Mnemonic.ofToken (t : Token) : Option Mnemonic :=
  Mnemonic.all.find? (fun m => decide (m.spelling = t))

/-- The minimum number of operand tokens (R64). -/
def Mnemonic.minOperands : Mnemonic → Nat
  | .load => 2
  | .store => 2
  | .move => 2
  | .add => 3
  | .sub => 3
  | .and => 3
  | .or => 3
  | .branch => 1
  | .bezero => 1
  | .bneg => 1
  | .nop => 0
  | .halt => 0

/-! The assembler (R69 to R72). -/

/-- A LOAD line, by the form of its second operand. `none`: the literal has no encoding and the line is refused (R72). -/
def assembleLoad (prefixes : List Char) (reg src : Token) : Option Instr :=
  if isLiteral src then
    if immFits (litValue src) then some (.loadLit (regOperand reg) (litValue src)) else none
  else some (.loadMem (regOperand reg) (addrOperand prefixes src))

/-- The instruction of a list of tokens. Operands past the last one a mnemonic needs are ignored (R71). A list with no
token, an unknown mnemonic or too few operands is malformed and gives UNREC (R70). `none`: refused (R72). -/
def assembleTokens (prefixes : List Char) (ts : List Token) : Option Instr :=
  match ts with
  | [] => some .unrec0
  | t :: ops =>
    match Mnemonic.ofToken t, ops with
    | some .load, reg :: src :: _ => assembleLoad prefixes reg src
    | some .store, addr :: reg :: _ => some (.store (regOperand reg) (addrOperand prefixes addr))
    | some .move, a :: b :: _ => some (.move (regOperand a) (regOperand b))
    | some .add, a :: b :: c :: _ => some (.add (regOperand a) (regOperand b) (regOperand c))
    | some .sub, a :: b :: c :: _ => some (.sub (regOperand a) (regOperand b) (regOperand c))
    | some .and, a :: b :: c :: _ => some (.and (regOperand a) (regOperand b) (regOperand c))
    | some .or, a :: b :: c :: _ => some (.or (regOperand a) (regOperand b) (regOperand c))
    | some .branch, a :: _ => some (.branch (targetOperand prefixes a))
    | some .bezero, a :: _ => some (.bezero (targetOperand prefixes a))
    | some .bneg, a :: _ => some (.bneg (targetOperand prefixes a))
    | some .nop, _ => some .nop
    | some .halt, _ => some .halt
    | _, _ => some .unrec0

/-- The instruction of a line. `none`: refused (R72). -/
def assembleInstr (prefixes : List Char) (line : Line) : Option Instr :=
  assembleTokens prefixes (tokenize line)

/-- `Assemble(line)` (R69). `none`: refused (R72). -/
def assemble (prefixes : List Char) (line : Line) : Option InstrWord :=
  (assembleInstr prefixes line).map encodeCanonical

/-! The disassembler (R73). -/

/-- The digit character of a value below 10. -/
def digitChar (n : Nat) : Char := Char.ofNat (0x30 + n)

/-- The decimal digits of a number of at most `fuel` digits. -/
def natDigits : Nat → Nat → List Char
  | 0, _ => []
  | fuel + 1, n => if n < 10 then [digitChar n] else natDigits fuel (n / 10) ++ [digitChar (n % 10)]

/-- A number of the source grammar. 11 digits are more than a 32-bit value has. -/
def numberToken (z : Int) : Token :=
  if z < 0 then '-' :: natDigits 11 z.natAbs else natDigits 11 z.natAbs

/-- The token of a register field. The field 15 is what every invalid register token assembles to (R55). DESIGN CHOICE: of
the tokens of the grammar that do, `R4` to `R9`, `R9` is printed; log entry 6. The fields 4 to 14 have no token, since the
assembler writes none of them (R66). -/
def registerToken (r : RegField) : Option Token :=
  if regValid r then some ['R', digitChar r.toNat]
  else if r = 0xF#4 then some ['R', '9']
  else none

/-- The address token of LOAD's memory form: the first letter of `ADDR_PREFIXES`, then the number (R73). -/
def loadAddrToken (prefixes : List Char) (imm : Int) : Option Token :=
  match prefixes with
  | [] => none
  | p :: _ => some (p :: numberToken imm)

/-- The three register tokens of an ALU instruction, after its mnemonic. -/
def aluTokens (m : Mnemonic) (ra rb rc : RegField) : Option (List Token) :=
  match registerToken ra, registerToken rb, registerToken rc with
  | some a, some b, some c => some [m.spelling, a, b, c]
  | _, _, _ => none

/-- The tokens of the line of an instruction, where it has one (R73). DESIGN CHOICE, log entry 6: the mnemonic is printed in
capitals, where R73 takes it in any letter case, with no operand past those it needs, which R71 would ignore; the address
of a STORE and the target of a branch are printed without a prefix, which R73 fixes for the memory form of LOAD only; and the canonical
unrecognized word is printed as the mnemonic LOAD alone, a line of the grammar's first production that has too few
operands. The two rows that `Encode` never writes have no line. -/
def instrTokens (prefixes : List Char) (i : Instr) : Option (List Token) :=
  match i with
  | .loadLit ra imm => (registerToken ra).map (fun r => [Mnemonic.load.spelling, r, numberToken imm])
  | .loadMem ra imm =>
    match registerToken ra, loadAddrToken prefixes imm with
    | some r, some a => some [Mnemonic.load.spelling, r, a]
    | _, _ => none
  | .store ra imm => (registerToken ra).map (fun r => [Mnemonic.store.spelling, numberToken imm, r])
  | .move ra rb =>
    match registerToken ra, registerToken rb with
    | some a, some b => some [Mnemonic.move.spelling, a, b]
    | _, _ => none
  | .add ra rb rc => aluTokens .add ra rb rc
  | .sub ra rb rc => aluTokens .sub ra rb rc
  | .and ra rb rc => aluTokens .and ra rb rc
  | .or ra rb rc => aluTokens .or ra rb rc
  | .branch imm => some [Mnemonic.branch.spelling, numberToken imm]
  | .bezero imm => some [Mnemonic.bezero.spelling, numberToken imm]
  | .bneg imm => some [Mnemonic.bneg.spelling, numberToken imm]
  | .nop => some [Mnemonic.nop.spelling]
  | .halt => some [Mnemonic.halt.spelling]
  | .unrec0 => some [Mnemonic.load.spelling]
  | .unrecE => none
  | .unrecF => none

/-- The tokens with single spaces between them. -/
def joinTokens : List Token → Line
  | [] => []
  | [t] => t
  | t :: ts => t ++ ' ' :: joinTokens ts

/-- The disassembly of a canonical word (R73). DESIGN CHOICE, log entry 6: no whitespace before or after it and no comment. -/
def disassemble (prefixes : List Char) (w : InstrWord) : Option Line :=
  if encodeCanonical (decode w) = w then (instrTokens prefixes (decode w)).map joinTokens else none

end Sys2Proof.Machine
end

