-- ==== Sys2Proof/Machine/Session.lean ====
section
/-! DEFINITION. The host around the core: the four phases of a run, the host's moves and the report
(spec/70_reset_and_hazards.md R171 to R175). The phase is the host's and no part of the core's state
(spec/10_state.md R17, R21): the move `start` touches no core state (R175). -/

namespace Sys2Proof.Machine

/-- The four phases (R171). `reset` is the phase before the host has reset the core. -/
inductive Phase where
  | reset | load | run | report
  deriving DecidableEq, Repr

/-- What the loader has seeded since the last reset: nothing yet, a whole set, or the cells written through the seed port
one by one, whose addresses the port remembers. -/
inductive Seeding where
  | none
  | set
  | port (cells : List (BitVec 5))
  deriving DecidableEq, Repr

/-- The core, the phase its host is in, and what the loader has done since the last reset: loading and seeding happen once
(R171). -/
structure System where
  phase : Phase
  core : State
  loaded : Bool
  seeding : Seeding
  deriving DecidableEq, Repr

/-- The moves of the host that change something (R175). -/
inductive HostMove where
  /-- Reset, allowed at any time (R170). -/
  | reset
  /-- Write the program store with these words; `PROG_LEN` is their number (R172). -/
  | loadWords (words : List InstrWord)
  /-- Assemble these lines and write the program store with their words (R172). -/
  | loadSource (prefixes : List Char) (lines : List Line)
  /-- Seed these cells (R173). -/
  | seed (pairs : List (Int × Int))
  /-- End the LOAD phase (R175). -/
  | start
  deriving DecidableEq, Repr

/-- The program store holds `words` (R172). A program longer than `M` is refused. -/
def State.loadProgram (s : State) (words : List InstrWord) : Host.Outcome State Fault Refusal :=
  if words.length ≤ Config.memCells then .next { s with prog := words } else .refused .programTooLong

/-- The words of a list of lines; `none` if the assembler refuses one of them. -/
def assembleLines (prefixes : List Char) (lines : List Line) : Option (List InstrWord) :=
  lines.mapM (assemble prefixes)

/-- The loader's duty for seed pairs: every address a cell, every value in range, addresses distinct (R173). -/
def seedsValid (pairs : List (Int × Int)) : Bool :=
  pairs.all (fun p => addrValid p.1 && immFits p.2) && decide ((pairs.map (fun p => p.1)).Nodup)

/-- `Mem[address] <- value` for each pair in turn (R173). -/
def State.writeSeeds (s : State) (pairs : List (Int × Int)) : State :=
  match pairs with
  | [] => s
  | p :: rest =>
    match addrIndex p.1 with
    | some a => State.writeSeeds (s.setCell a (wrap p.2)) rest
    | none => State.writeSeeds s rest

/-- Seeding (R173). A set that breaks the loader's duty is refused whole. -/
def State.seedMemory (s : State) (pairs : List (Int × Int)) : Host.Outcome State Fault Refusal :=
  if seedsValid pairs then .next (s.writeSeeds pairs) else .refused .badSeeds

/-- Load source text: assemble, then load. -/
def State.loadSource (s : State) (prefixes : List Char) (lines : List Line) :
    Host.Outcome State Fault Refusal :=
  match assembleLines prefixes lines with
  | some words => s.loadProgram words
  | none => .refused .literalOutOfRange

/-- The core after a move of the loader, the phase as before. -/
def System.withCore (y : System) (o : Host.Outcome State Fault Refusal) :
    Host.Outcome System Fault Refusal :=
  match o with
  | .next s => .next { y with core := s }
  | .fault f => .fault f
  | .refused r => .refused r

/-- The core after a reset that comes later than power-on: every state element at its reset value (R170), and the
program store, which the core does not reset (spec/10_state.md R22), as the loader left it. Log entry 7. -/
def State.resetAgain (s : State) : State := { State.reset with prog := s.prog }

/-- The system after its one load of a program (R171). DESIGN CHOICE: a second load is refused; log entry 11. -/
def System.loadOnce (y : System) (o : Host.Outcome State Fault Refusal) : Host.Outcome System Fault Refusal :=
  if y.loaded then .refused .alreadyLoaded else { y with loaded := true }.withCore o

/-- The system after its one seeding with a whole set (R171, R173). DESIGN CHOICE: a second seeding is refused; log entry
11. -/
def System.seedOnce (y : System) (pairs : List (Int × Int)) : Host.Outcome System Fault Refusal :=
  match y.seeding with
  | .none => { y with seeding := .set }.withCore (y.core.seedMemory pairs)
  | .set => .refused .alreadySeeded
  | .port _ => .refused .alreadySeeded

/-- A move of the host (R175): reset at any time, the loader's moves and `start` in the LOAD phase only. DESIGN CHOICE: any
other move is refused; log entry 11. -/
def System.hostMove (y : System) (m : HostMove) : Host.Outcome System Fault Refusal :=
  match m, y.phase with
  | .reset, _ => .next { phase := .load, core := y.core.resetAgain, loaded := false, seeding := .none }
  | .loadWords words, .load => y.loadOnce (y.core.loadProgram words)
  | .loadSource prefixes lines, .load => y.loadOnce (y.core.loadSource prefixes lines)
  | .seed pairs, .load => y.seedOnce pairs
  | .start, .load => .next { y with phase := .run }
  | _, _ => .refused .outOfPhase

/-- One turn of the system with the host quiet: in the RUN phase the core steps, and when it has reached a terminal
state the REPORT phase begins (R171, R174). In the other phases the core stands still. -/
def System.tick (y : System) : Host.Outcome System Fault Refusal :=
  match y.phase with
  | .run =>
    match y.core.status with
    | .running => y.withCore (step y.core)
    | .halted => .next { y with phase := .report }
    | .outOfRange => .next { y with phase := .report }
  | .reset => .next y
  | .load => .next y
  | .report => .next y

/-- What the core hands back (R174): the registers and the memory in index order and the trace, and, exposed by the spec
beside them, the final `pc`, `halted` and status. DESIGN CHOICE: the diagnostic events are handed back too, log entry 8;
R174 does not list them, spec/44_system.md R143 counts the channel among what the host reads after the run. -/
structure Report where
  registers : List Word
  memory : List Word
  trace : List TraceEntry
  pc : Word
  halted : Bool
  status : Status
  diag : List Malformed
  deriving DecidableEq, Repr

/-- The report read off a state. -/
def State.report (s : State) : Report where
  registers := s.regs.toList
  memory := (List.range Config.memCells).map (fun a => s.mem.read a)
  trace := s.trace
  pc := s.pc
  halted := s.halted
  status := s.status
  diag := s.diag

/-- Reading the results, in the REPORT phase only (R175). -/
def System.readResults (y : System) : Host.Outcome Report Fault Refusal :=
  match y.phase with
  | .report => .next y.core.report
  | .reset => .refused .outOfPhase
  | .load => .refused .outOfPhase
  | .run => .refused .outOfPhase

end Sys2Proof.Machine
end

