-- ==== Sys2Proof/Machine/Ports.lean ====
section
/-! DEFINITION. The ports the spec proposes (spec/70_reset_and_hazards.md R176) as views of the state. No rule depends
on them. `clk` has no view, since a model has no time (R181). A port that the spec gives to one phase acts on the
system, and is refused in another phase; log entry 12. -/

namespace Sys2Proof.Machine

/-- The output pins that are a function of the state alone. -/
structure Pins where
  halted : Bool
  outOfRange : Bool
  pcOut : BitVec 6
  regOut : Vector Word Config.numRegs
  imemAddr : BitVec 5
  deriving DecidableEq, Repr

/-- The pins of a state. -/
def State.pins (s : State) : Pins where
  halted := s.halted
  outOfRange := !s.halted && decide (signed s.pc = s.progLen)
  pcOut := s.pc.truncate 6
  regOut := s.regs
  imemAddr := s.pc.truncate 5

/-- `prog_len`, 6 bits (R176). -/
def State.progLenPin (s : State) : BitVec 6 := BitVec.ofNat 6 s.progLen

/-- `imem_data = Prog[imem_addr]`; no word where the address is past the program. -/
def State.imemData (s : State) (addr : BitVec 5) : Option InstrWord := s.prog[addr.toNat]?

/-- `rst`: reset, where it is 1 (R170). -/
def System.rstPort (y : System) (rst : Bool) : Host.Outcome System Fault Refusal :=
  if rst then y.hostMove .reset else .next y

/-- `start`: ends phase 2 and begins phase 3, where it is 1. -/
def System.startPort (y : System) (start : Bool) : Host.Outcome System Fault Refusal :=
  if start then y.hostMove .start else .next y

/-- One seed write: `Mem[addr] <- data`, for a cell that this seeding has not written (R173: addresses are distinct). -/
def System.seedCell (y : System) (cells : List (BitVec 5)) (addr : BitVec 5) (data : Word) :
    Host.Outcome System Fault Refusal :=
  if addr ∈ cells then .refused .badSeeds
  else .next { y with core := y.core.setCell ⟨addr.toNat, addr.isLt⟩ data, seeding := .port (addr :: cells) }

/-- A seed write in phase 2. The writes of one LOAD phase are the pairs of its one seeding (R171), so none follows a set
that was given whole. -/
def System.seedInLoad (y : System) (addr : BitVec 5) (data : Word) : Host.Outcome System Fault Refusal :=
  match y.seeding with
  | .none => y.seedCell [] addr data
  | .port cells => y.seedCell cells addr data
  | .set => .refused .alreadySeeded

/-- `seed_we`, `seed_addr`, `seed_data`: in phase 2 only, where `seed_we` is 1. -/
def System.seedPort (y : System) (we : Bool) (addr : BitVec 5) (data : Word) : Host.Outcome System Fault Refusal :=
  if we then
    match y.phase with
    | .load => y.seedInLoad addr data
    | .reset => .refused .outOfPhase
    | .run => .refused .outOfPhase
    | .report => .refused .outOfPhase
  else .next y

/-- `mem_raddr`, `mem_rdata`: the reporter's read of a cell, in phase 4 only. -/
def System.memRdata (y : System) (addr : BitVec 5) : Host.Outcome Word Fault Refusal :=
  match y.phase with
  | .report => .next (y.core.mem.read addr.toNat)
  | .reset => .refused .outOfPhase
  | .load => .refused .outOfPhase
  | .run => .refused .outOfPhase

/-- What the coming step appends to the trace, at the width of the state; log entry 12. -/
def State.tracePulse (s : State) : Option TraceEntry :=
  match s.status, s.fetch with
  | .running, some w => some { pc := s.pc, word := w }
  | _, _ => none

/-- What the coming step reports: an event exactly in a step that executes an UNREC (spec/60_exceptions.md R155). -/
def State.diagPulse (s : State) : Option Malformed :=
  match s.tracePulse with
  | some e => if (decode e.word).kind = .unrec then some { pc := e.pc, word := e.word } else none
  | none => none

/-- The pins of one pulse: a program index of 6 bits and a word of 48. -/
structure PulsePins where
  pc : BitVec 6
  word : InstrWord
  deriving DecidableEq, Repr

/-- `trace_valid`, `trace_pc`, `trace_word` in the coming step: a value is a pulse, with valid 1; `none` is valid 0, where
the spec gives the other two pins no meaning. Steps are taken in phase 3 only. -/
def System.tracePort (y : System) : Option PulsePins :=
  match y.phase with
  | .run => y.core.tracePulse.map (fun e => { pc := e.pc.truncate 6, word := e.word })
  | .reset => none
  | .load => none
  | .report => none

/-- `diag_valid`, `diag_pc`, `diag_word` in the coming step (R155), read as `System.tracePort` is. -/
def System.diagPort (y : System) : Option PulsePins :=
  match y.phase with
  | .run => y.core.diagPulse.map (fun e => { pc := e.pc.truncate 6, word := e.word })
  | .reset => none
  | .load => none
  | .report => none

end Sys2Proof.Machine
end

