-- ==== Sys2Proof/Machine/TextLevel.lean ====
section
/-! DEFINITION. The source document's own reading of a line: the instruction table the spec quotes row by row (the
quoted sentences under R110 to R113, R120 to R123, R131 to R133, R140 to R142), stated on tokens and not on words. The
hardware does not work so; spec/30_encoding.md R74 says that the words the assembler makes act as this does. -/

namespace Sys2Proof.Machine

/-- A register token of the table: invalid, or a register that exists ("Returns a sentinel invalid value", R55). -/
def textReg (t : Token) : Option (Fin Config.numRegs) :=
  match t with
  | c :: d :: _ =>
    if c = 'R' ∧ isDigitChar d then
      if h : digitValue d < Config.numRegs then some ⟨digitValue d, h⟩ else none
    else none
  | _ => none

/-- An address or target token: invalid, or the number it spells, whatever its size (R67's quoted sentence). -/
def textNumber (prefixes : List Char) (t : Token) : Option Int :=
  let u := dropPrefix prefixes t
  if isLiteral u then some (litValue u) else none

/-- An address token that names a cell: parsed, then bounds-checked before use (R32). -/
def textCell (prefixes : List Char) (t : Token) : Option (Fin Config.memCells) :=
  (textNumber prefixes t).bind addrIndex

/-- The table's ALU rows: "All three must be valid registers." -/
def textBinary (f : Word → Word → Word) (a b c : Token) (s : State) : State :=
  match textReg a, textReg b, textReg c with
  | some d, some x, some y => (s.setReg d (f (s.reg x) (s.reg y))).advance
  | _, _, _ => s.advance

/-- The table's branch rows: taken iff the condition holds and the target is a valid index into the program. -/
def textBranch (prefixes : List Char) (condition : Bool) (t : Token) (s : State) : State :=
  match textNumber prefixes t with
  | some k => if condition && s.targetValid k then s.setPc (wrap k) else s.advance
  | none => s.advance

/-- The table's row for LOAD. `none`: a literal outside the cell's range, to which the document gives no meaning (R72). -/
def textLoad (prefixes : List Char) (reg src : Token) (s : State) : Option State :=
  if isLiteral src then
    if immFits (litValue src) then
      match textReg reg with
      | some d => some (s.setReg d (wrap (litValue src))).advance
      | none => some s.advance
    else none
  else
    match textReg reg, textCell prefixes src with
    | some d, some a => some (s.setReg d (s.cell a)).advance
    | _, _ => some s.advance

/-- The table's row for STORE. -/
def textStore (prefixes : List Char) (addr reg : Token) (s : State) : State :=
  match textCell prefixes addr, textReg reg with
  | some a, some r => (s.setCell a (s.reg r)).advance
  | _, _ => s.advance

/-- The table's row for MOVE. -/
def textMove (a b : Token) (s : State) : State :=
  match textReg a, textReg b with
  | some d, some x => (s.setReg d (s.reg x)).advance
  | _, _ => s.advance

/-- The effect of a line with a known mnemonic and enough operands. The last line is reached only with too few. -/
def textEffect (prefixes : List Char) (m : Mnemonic) (ops : List Token) (s : State) : Option State :=
  match m, ops with
  | .load, reg :: src :: _ => textLoad prefixes reg src s
  | .store, addr :: reg :: _ => some (textStore prefixes addr reg s)
  | .move, a :: b :: _ => some (textMove a b s)
  | .add, a :: b :: c :: _ => some (textBinary aluAdd a b c s)
  | .sub, a :: b :: c :: _ => some (textBinary aluSub a b c s)
  | .and, a :: b :: c :: _ => some (textBinary aluAnd a b c s)
  | .or, a :: b :: c :: _ => some (textBinary aluOr a b c s)
  | .branch, a :: _ => some (textBranch prefixes true a s)
  | .bezero, a :: _ => some (textBranch prefixes s.zeroTest a s)
  | .bneg, a :: _ => some (textBranch prefixes s.negTest a s)
  | .nop, _ => some s.advance
  | .halt, _ => some s.setHalted
  | _, _ => some s.advance

/-- One line executed as the document's text-level rules say: a malformed line has no effect and advances (R150), every
other line has the effect of its row. The diagnostic channel is external to this reading. -/
def textExec (prefixes : List Char) (line : Line) (s : State) : Option State :=
  match tokenize line with
  | [] => some s.advance
  | t :: ops =>
    match Mnemonic.ofToken t with
    | none => some s.advance
    | some m => if ops.length < m.minOperands then some s.advance else textEffect prefixes m ops s

end Sys2Proof.Machine
end

