-- ==== Sys2Proof/Machine/Run.lean ====
section
/-! DEFINITION. The run loop under a budget of steps (spec/40_execution_cycle.md R99, R102). The budget is the model's
own: the hardware has no step limit. -/

namespace Sys2Proof.Machine

/-- At most `fuel` turns of the run loop. The stop test is made before every step, the first included (R99). -/
def run : Nat → State → Host.Outcome State Fault Refusal
  | 0, s => .next s
  | fuel + 1, s =>
    match s.status with
    | .running =>
      match step s with
      | .next t => run fuel t
      | o => o
    | .halted => .next s
    | .outOfRange => .next s

end Sys2Proof.Machine
end

