-- ==== Sys2Proof/Safety.lean ====
section
/-! DEFINITION. What claims about the machine are stated with: the terminal states, the state tuple, and the invariants
of a state that a run can reach. -/

namespace Sys2Proof.Machine

/-- HALTED or OUT_OF_RANGE (spec/40_execution_cycle.md R100). -/
abbrev State.terminal (s : State) : Prop := s.status ≠ .running

/-- The complete state that a step reads and writes, `(x, Mem, pc, halted)` (spec/10_state.md R21). -/
def State.tuple (s : State) : Vector Word Config.numRegs × Memory × Word × Bool :=
  (s.regs, s.mem, s.pc, s.halted)

/-- The invariant of the state proper: the memory in its canonical form, `PROG_LEN <= M`, `0 <= pc <= PROG_LEN`, and
`pc` still in range in a halted core (spec/10_state.md R14, spec/00_scope.md R4, spec/60_exceptions.md R157). -/
abbrev State.Inv (s : State) : Prop :=
  s.mem.wf ∧ s.progLen ≤ Config.memCells ∧ 0 ≤ signed s.pc ∧ signed s.pc ≤ s.progLen ∧
    (s.halted = true → signed s.pc < s.progLen)

/-- Every entry of the trace is a fetch of this program (spec/40_execution_cycle.md R92). -/
abbrev State.TraceOfFetches (s : State) : Prop :=
  ∀ e ∈ s.trace, 0 ≤ signed e.pc ∧ s.prog[e.pc.toNat]? = some e.word

/-- The entries of a trace whose word is unrecognized, as events. -/
def malformedOf (trace : List TraceEntry) : List Malformed :=
  (trace.filter (fun e => decide ((decode e.word).kind = .unrec))).map
    (fun e => { pc := e.pc, word := e.word })

/-- The diagnostic channel has carried one event for each unrecognized instruction traced, in order, and no other
(spec/10_state.md R19). -/
abbrev State.DiagOfTrace (s : State) : Prop := s.diag = malformedOf s.trace

/-- A halted core stands at the HALT its last trace entry fetched (spec/44_system.md R141). -/
abbrev State.HaltTraced (s : State) : Prop :=
  s.halted = true → (s.trace.getLast?).any (fun e => decide (e.pc = s.pc) && decide ((decode e.word).kind = .halt)) = true

/-- The invariant of the core under its host: the program fits always (`ProgFits`), after the first reset the core meets
its invariants, in the LOAD phase nothing has run yet, and in the REPORT phase the core is in a terminal state
(spec/70_reset_and_hazards.md R171, R178). -/
abbrev System.Inv (y : System) : Prop :=
  y.core.progLen ≤ Config.memCells ∧
  (y.phase ≠ .reset →
    y.core.Inv ∧ y.core.TraceOfFetches ∧ y.core.DiagOfTrace ∧ y.core.HaltTraced ∧
      (y.phase = .load → y.core.pc = 0 ∧ y.core.halted = false ∧ y.core.trace = []) ∧
      (y.phase = .report → y.core.terminal))

end Sys2Proof.Machine

namespace Sys2Proof

/-- The field that names the register an instruction writes (spec/10_state.md R11). -/
def Instr.destField : Instr → Option RegField
  | .loadLit ra _ => some ra
  | .loadMem ra _ => some ra
  | .move ra _ => some ra
  | .add ra _ _ => some ra
  | .sub ra _ _ => some ra
  | .and ra _ _ => some ra
  | .or ra _ _ => some ra
  | .store _ _ => none
  | .branch _ => none
  | .bezero _ => none
  | .bneg _ => none
  | .nop => none
  | .halt => none
  | .unrec0 => none
  | .unrecE => none
  | .unrecF => none

/-- The fields that name the registers an instruction reads; BEZERO and BNEG read register 0 always (R11). -/
def Instr.sourceFields : Instr → List RegField
  | .store ra _ => [ra]
  | .move _ rb => [rb]
  | .add _ rb rc => [rb, rc]
  | .sub _ rb rc => [rb, rc]
  | .and _ rb rc => [rb, rc]
  | .or _ rb rc => [rb, rc]
  | .bezero _ => [0#4]
  | .bneg _ => [0#4]
  | .loadLit _ _ => []
  | .loadMem _ _ => []
  | .branch _ => []
  | .nop => []
  | .halt => []
  | .unrec0 => []
  | .unrecE => []
  | .unrecF => []

end Sys2Proof
end

