-- ==== Sys2Proof/Certificates/Slice0/Obligations.lean ====
section
/-! DEFINITION. The statements for the provers, from the spec's numbered rules. `next t` is the outcome that gives the
next state `t`. Each docstring cites the rule it formalises. -/

open Sys2Proof Sys2Proof.Machine

/-! ### Encoding -/

/-- spec/30_encoding.md R50: the five fields of the word, bit by bit, and the worked example. -/
def Obligations.WordIsItsFiveFields : Prop :=
  (∀ w : InstrWord,
    w.toNat = (opcodeField w).toNat * 2 ^ 44 + (raField w).toNat * 2 ^ 40 + (rbField w).toNat * 2 ^ 36
      + (rcField w).toNat * 2 ^ 32 + (immBits w).toNat) ∧
  (∀ (c : BitVec 4) (ra rb rc : RegField) (imm : Word),
    (packWord c ra rb rc imm).toNat = c.toNat * 2 ^ 44 + ra.toNat * 2 ^ 40 + rb.toNat * 2 ^ 36
      + rc.toNat * 2 ^ 32 + imm.toNat) ∧
  decode 0x520100000000#48 = .add 2 0 1

/-- R59: what the decoder reads from a word, for each opcode and every value of every field, valid or not. By R50 every
word is one of these. -/
def Obligations.DecodeReadsEveryWord : Prop :=
  ∀ (ra rb rc : RegField) (imm : Word),
    decode (packWord 0x1 ra rb rc imm) = .loadLit ra (signed imm) ∧
    decode (packWord 0x2 ra rb rc imm) = .loadMem ra (signed imm) ∧
    decode (packWord 0x3 ra rb rc imm) = .store ra (signed imm) ∧
    decode (packWord 0x4 ra rb rc imm) = .move ra rb ∧
    decode (packWord 0x5 ra rb rc imm) = .add ra rb rc ∧
    decode (packWord 0x6 ra rb rc imm) = .sub ra rb rc ∧
    decode (packWord 0x7 ra rb rc imm) = .and ra rb rc ∧
    decode (packWord 0x8 ra rb rc imm) = .or ra rb rc ∧
    decode (packWord 0x9 ra rb rc imm) = .branch (signed imm) ∧
    decode (packWord 0xA ra rb rc imm) = .bezero (signed imm) ∧
    decode (packWord 0xB ra rb rc imm) = .bneg (signed imm) ∧
    decode (packWord 0xC ra rb rc imm) = .nop ∧
    decode (packWord 0xD ra rb rc imm) = .halt ∧
    decode (packWord 0x0 ra rb rc imm) = .unrec0 ∧
    decode (packWord 0xE ra rb rc imm) = .unrecE ∧
    decode (packWord 0xF ra rb rc imm) = .unrecF

/-- R57: the opcode map, row by row, and that every word lies in exactly the row it decodes to. -/
def Obligations.OpcodeMapPartitionsWords : Prop :=
  (∀ r ∈ ([(.unrec0, 0x000000000000#48, .unrec, .z), (.loadLit, 0x100000000000#48, .loadl, .rl),
      (.loadMem, 0x200000000000#48, .loadm, .ra), (.store, 0x300000000000#48, .store, .ra),
      (.move, 0x400000000000#48, .move, .rr), (.add, 0x500000000000#48, .add, .rrr),
      (.sub, 0x600000000000#48, .sub, .rrr), (.and, 0x700000000000#48, .and, .rrr),
      (.or, 0x800000000000#48, .or, .rrr), (.branch, 0x900000000000#48, .branch, .t),
      (.bezero, 0xA00000000000#48, .bezero, .t), (.bneg, 0xB00000000000#48, .bneg, .t),
      (.nop, 0xC00000000000#48, .nop, .z), (.halt, 0xD00000000000#48, .halt, .z),
      (.unrecE, 0xE00000000000#48, .unrec, .z), (.unrecF, 0xF00000000000#48, .unrec, .z)]
        : List (Op × InstrWord × Kind × Format)),
    r.1.matchWord = r.2.1 ∧ r.1.kind = r.2.2.1 ∧ r.1.kind.format = r.2.2.2) ∧
  ∀ (w : InstrWord) (o : Op), w &&& 0xF00000000000#48 = o.matchWord ↔ (decode w).op = o

/-- Decode of encode is the instruction, for every well-formed instruction with every operand the encoding admits. -/
def Obligations.DecodeInvertsEncode : Prop :=
  ∀ i : Instr, i.wellFormed = true → decode (encode i) = i

/-- The canonical encoder, both ways, as R60 has it; the spec marks the two laws as derived from R56 and R59. An
instruction is in canonical form iff it is not one of the two UNREC rows that `Encode` never writes. -/
def Obligations.CanonicalEncoderRoundTrip : Prop :=
  (∀ i : Instr, opcodeField (encodeCanonical i) = (if i.kind = .unrec then 0x0#4 else i.op.code) ∧
    unusedFieldsZero (encodeCanonical i) = true) ∧
  (∀ i : Instr, i.wellFormed = true → i ≠ .unrecE → i ≠ .unrecF → decode (encodeCanonical i) = i) ∧
  (∀ w : InstrWord, encodeCanonical (decode w) = w ↔
    unusedFieldsZero w = true ∧ opcodeField w ≠ 0xE#4 ∧ opcodeField w ≠ 0xF#4)

/-- Every decoded instruction is well formed: its `imm` is a 32-bit signed value (R54). -/
def Obligations.DecodeYieldsWellFormed : Prop :=
  ∀ w : InstrWord, (decode w).wellFormed = true

/-- Words written out in spec/30_encoding.md section 6 decode to the instructions they stand for. -/
def Obligations.WorkedEncodingsDecode : Prop :=
  decode 0x100000000005#48 = .loadLit 0 5 ∧ decode 0x1100FFFFFFFF#48 = .loadLit 1 (-1) ∧
  decode 0x230000000007#48 = .loadMem 3 7 ∧ decode 0x32000000000A#48 = .store 2 10 ∧
  decode 0x410000000000#48 = .move 1 0 ∧ decode 0x600200000000#48 = .sub 0 0 2 ∧
  decode 0x731200000000#48 = .and 3 1 2 ∧ decode 0x833000000000#48 = .or 3 3 0 ∧
  decode 0x5F0100000000#48 = .add 15 0 1 ∧ decode 0x900000000000#48 = .branch 0 ∧
  decode 0xA00000000003#48 = .bezero 3 ∧ decode 0xB000FFFFFFFE#48 = .bneg (-2) ∧
  decode 0xC00000000000#48 = .nop ∧ decode 0xD00000000000#48 = .halt ∧ decode 0x000000000000#48 = .unrec0

/-! ### Reset -/

/-- spec/10_state.md R12 for the registers; R13 to R16 and R18 and spec/70_reset_and_hazards.md R170 for the rest: the
state after reset, with nothing loaded. -/
def Obligations.ResetState : Prop :=
  (∀ i, State.reset.reg i = 0) ∧ (∀ a, State.reset.cell a = 0) ∧ State.reset.pc = 0 ∧
  State.reset.halted = false ∧ State.reset.trace = [] ∧ State.reset.diag = [] ∧ State.reset.progLen = 0

/-- The invariants below hold at reset, and the status there is RUNNING iff a program is loaded, which R22's table
marks as derived from R20. -/
def Obligations.ResetMeetsInvariants : Prop :=
  State.reset.Inv ∧ State.reset.TraceOfFetches ∧ State.reset.DiagOfTrace ∧ State.reset.HaltTraced ∧
  State.reset.status = .outOfRange ∧
  ∀ prog : List InstrWord, prog ≠ [] → { State.reset with prog := prog }.status = .running

/-! ### The step -/

/-- spec/40_execution_cycle.md R90: in a RUNNING core the step is the execution of the decoded word at `pc`, on the
state whose trace has already grown by the entry of this fetch. -/
def Obligations.StepRunsDecodedInstruction : Prop :=
  ∀ (s : State) (w : InstrWord), s.halted = false → 0 ≤ signed s.pc → signed s.pc < s.prog.length →
    s.prog[s.pc.toNat]? = some w →
    step s = exec (decode w) { s with trace := s.trace ++ [{ pc := s.pc, word := w }] }

/-- In a terminal state a step changes nothing. That the model answers so, and does not stop, is the model's choice
(log entry 1); R100 says that the core changes no state there. -/
def Obligations.TerminalStateHolds : Prop :=
  ∀ s : State, s.halted = true ∨ signed s.pc < 0 ∨ (s.prog.length : Int) ≤ signed s.pc → step s = .next s

/-- What the spec marks, under R154 of spec/60_exceptions.md, as derived from R150 to R153: every instruction in every
state, and every step of a RUNNING core, whatever the word at `pc`, gives a next state: nothing faults and nothing is
refused. -/
def Obligations.EveryStepHasNextState : Prop :=
  (∀ (i : Instr) (s : State), ∃ t, exec i s = .next t) ∧
  ∀ s : State, s.status = .running → ∃ t, step s = .next t

/-- R92: a step of a RUNNING core appends exactly one entry, with the `pc` before the step and the fetched word, before
the instruction executes, and the number of entries grows by the number of steps taken. -/
def Obligations.EachStepTracesOneFetch : Prop :=
  (∀ s : State, s.status = .running →
    ∃ w t, s.prog[s.pc.toNat]? = some w ∧
      step s = exec (decode w) { s with trace := s.trace ++ [{ pc := s.pc, word := w }] } ∧ step s = .next t ∧
      t.trace = s.trace ++ [{ pc := s.pc, word := w }]) ∧
  (∀ (s t : State), s.terminal → step s = .next t → t.trace = s.trace) ∧
  ∀ (n : Nat) (s t : State), run n s = .next t → t.status = .running →
    t.trace.length = s.trace.length + n

/-- Every step keeps the invariant of the state proper: canonical memory, `PROG_LEN <= M`, `0 <= pc <= PROG_LEN` (marked
under R14 of spec/10_state.md as derived from R22, R96 and R130), and `pc` in range in a halted core. -/
def Obligations.StepKeepsInv : Prop :=
  ∀ s t : State, s.Inv → step s = .next t → t.Inv

/-- Every step keeps the trace a list of fetches of this program. -/
def Obligations.StepKeepsTraceOfFetches : Prop :=
  ∀ s t : State, s.TraceOfFetches → step s = .next t → t.TraceOfFetches

/-- Every step keeps the diagnostic channel equal to the unrecognized part of the trace: one event for each unrecognized
instruction executed, in order, and none for any other cause (spec/10_state.md R19). -/
def Obligations.StepKeepsDiagOfTrace : Prop :=
  ∀ s t : State, s.DiagOfTrace → step s = .next t → t.DiagOfTrace

/-- Every step keeps the rule that a halted core stands at the HALT of its last trace entry (spec/44_system.md R141). -/
def Obligations.StepKeepsHaltTraced : Prop :=
  ∀ s t : State, s.HaltTraced → step s = .next t → t.HaltTraced

/-- spec/10_state.md R15: the halted flag is false at reset, set by a HALT alone, cleared by no step, no instruction
runs while it is true, no instruction can test it, and the host sees it in the status. -/
def Obligations.HaltedOnlyByHalt : Prop :=
  State.reset.halted = false ∧
  (∀ s t : State, step s = .next t →
    (t.halted = true ↔ s.halted = true ∨
      (s.status = .running ∧ ∃ w, s.fetch = some w ∧ opcodeField w = 0xD#4))) ∧
  (∀ s t : State, s.halted = true → step s = .next t → t = s) ∧
  (∀ (i : Instr) (s t : State) (b : Bool), i ≠ .halt → exec i s = .next t →
    exec i { s with halted := b } = .next { t with halted := b }) ∧
  (∀ (s : State) (b : Bool), exec .halt { s with halted := b } = .next { s with halted := true }) ∧
  ∀ s : State, s.report.status = .halted ↔ s.halted = true

/-- spec/20_memory.md R41: no step changes the program store. -/
def Obligations.ProgramStoreNeverChanges : Prop :=
  (∀ (i : Instr) (s t : State), exec i s = .next t → t.prog = s.prog) ∧
  ∀ (n : Nat) (s t : State), run n s = .next t → t.prog = s.prog

/-- spec/40_execution_cycle.md R98: an instruction writes at most one location, and that is the register its destination
field names or the cell its address names: a STORE writes the cell at its `imm`, with the register's old value, and no
register, and no other instruction writes a cell. -/
def Obligations.AtMostOneLocationWritten : Prop :=
  ∀ (i : Instr) (s t : State), exec i s = .next t →
    (t.regs = s.regs ∧ t.mem = s.mem) ∨
    (∃ ra d, i.destField = some ra ∧ regIndex ra = some d ∧ t.mem = s.mem ∧ ∀ j, j ≠ d → t.reg j = s.reg j) ∨
    (∃ ra imm r a, i = .store ra imm ∧ regIndex ra = some r ∧ addrIndex imm = some a ∧ t.regs = s.regs ∧
      t.mem.read a = s.reg r ∧ ∀ b : Nat, b ≠ a → t.mem.read b = s.mem.read b)

/-- spec/10_state.md R11: the registers an instruction reads and the one it writes. A register in no source field has no
influence on any other register, on memory, on `pc`, on `halted` or on an output, and the only register written is the
one the destination field names. -/
def Obligations.RegisterAccessTable : Prop :=
  (∀ (i : Instr) (s t : State) (j : Fin Config.numRegs), exec i s = .next t →
    (∀ ra, i.destField = some ra → ra.toNat ≠ j) → t.reg j = s.reg j) ∧
  (∀ (i : Instr) (s t : State) (j : Fin Config.numRegs) (v : Word), exec i s = .next t →
    (∀ r ∈ i.sourceFields, r.toNat ≠ j) →
    ∃ u, exec i { s with regs := s.regs.set j v } = .next u ∧ (∀ k, k ≠ j → u.reg k = t.reg k) ∧
      u.mem = t.mem ∧ u.pc = t.pc ∧ u.halted = t.halted ∧ u.trace = t.trace ∧ u.diag = t.diag)

/-- spec/40_execution_cycle.md R96: every instruction advances `pc` by one but for a taken branch and HALT, and in a
reachable RUNNING state the increment does not overflow. -/
def Obligations.DefaultAdvance : Prop :=
  (∀ (i : Instr) (s t : State), exec i s = .next t →
    i.kind ≠ .branch → i.kind ≠ .bezero → i.kind ≠ .bneg → i.kind ≠ .halt → t.pc = s.pc + 1) ∧
  (∀ (imm : Int) (s t : State), exec (.branch imm) s = .next t →
    t.pc = if 0 ≤ imm ∧ imm < s.prog.length then wrap imm else s.pc + 1) ∧
  (∀ (imm : Int) (s t : State), exec (.bezero imm) s = .next t →
    t.pc = if s.reg 0 = 0 ∧ 0 ≤ imm ∧ imm < s.prog.length then wrap imm else s.pc + 1) ∧
  (∀ (imm : Int) (s t : State), exec (.bneg imm) s = .next t →
    t.pc = if signed (s.reg 0) < 0 ∧ 0 ≤ imm ∧ imm < s.prog.length then wrap imm else s.pc + 1) ∧
  (∀ s t : State, exec .halt s = .next t → t.pc = s.pc) ∧
  ∀ s : State, s.Inv → s.status = .running → signed (s.pc + 1) = signed s.pc + 1

/-- R97: the operands each kind checks. With one of them invalid the instruction changes `pc` alone, by one. -/
def Obligations.InvalidOperandSkips : Prop :=
  (∀ (ra : RegField) (imm : Int) (s : State), 4 ≤ ra.toNat →
    exec (.loadLit ra imm) s = .next { s with pc := s.pc + 1 }) ∧
  (∀ (ra : RegField) (imm : Int) (s : State), 4 ≤ ra.toNat ∨ imm < 0 ∨ 32 ≤ imm →
    exec (.loadMem ra imm) s = .next { s with pc := s.pc + 1 } ∧
    exec (.store ra imm) s = .next { s with pc := s.pc + 1 }) ∧
  (∀ (ra rb : RegField) (s : State), 4 ≤ ra.toNat ∨ 4 ≤ rb.toNat →
    exec (.move ra rb) s = .next { s with pc := s.pc + 1 }) ∧
  (∀ (ra rb rc : RegField) (s : State), 4 ≤ ra.toNat ∨ 4 ≤ rb.toNat ∨ 4 ≤ rc.toNat →
    exec (.add ra rb rc) s = .next { s with pc := s.pc + 1 } ∧
    exec (.sub ra rb rc) s = .next { s with pc := s.pc + 1 } ∧
    exec (.and ra rb rc) s = .next { s with pc := s.pc + 1 } ∧
    exec (.or ra rb rc) s = .next { s with pc := s.pc + 1 }) ∧
  ∀ (imm : Int) (s : State), imm < 0 ∨ (s.prog.length : Int) ≤ imm →
    exec (.branch imm) s = .next { s with pc := s.pc + 1 } ∧
    exec (.bezero imm) s = .next { s with pc := s.pc + 1 } ∧
    exec (.bneg imm) s = .next { s with pc := s.pc + 1 }

/-! ### The effect of each instruction, with its operands valid. With one invalid, see `InvalidOperandSkips`. -/

/-- spec/41_data_movement.md R110. -/
def Obligations.LoadLiteralEffect : Prop :=
  (∀ (ra : RegField) (imm : Int) (s : State),
    encode (.loadLit ra imm) = packWord 0x1 ra 0 0 (wrap imm) ∧
    (∀ d : Fin Config.numRegs, ra.toNat = d →
      exec (.loadLit ra imm) s = .next { s with regs := s.regs.set d (wrap imm), pc := s.pc + 1 }) ∧
    (Config.numRegs ≤ ra.toNat → exec (.loadLit ra imm) s = .next { s with pc := s.pc + 1 }) ∧
    (-(2 ^ 31) ≤ imm → imm ≤ 2 ^ 31 - 1 → signed (wrap imm) = imm)) ∧
  assemble [] "LOAD R1 99".toList = some 0x110000000063#48

/-- R111. A cell reads as 0 at reset, and whatever a cell holds, it still holds after an instruction that is not a STORE
to it, so that a cell that nothing has written since reset reads as 0. -/
def Obligations.LoadMemoryEffect : Prop :=
  (∀ (ra : RegField) (imm : Int) (s : State),
    encode (.loadMem ra imm) = packWord 0x2 ra 0 0 (wrap imm) ∧
    (∀ (d : Fin Config.numRegs) (a : Fin Config.memCells), ra.toNat = d → imm = (a : Nat) →
      exec (.loadMem ra imm) s = .next { s with regs := s.regs.set d (s.mem.read a), pc := s.pc + 1 }) ∧
    (Config.numRegs ≤ ra.toNat ∨ imm < 0 ∨ (Config.memCells : Int) ≤ imm →
      exec (.loadMem ra imm) s = .next { s with pc := s.pc + 1 })) ∧
  (∀ a : Fin Config.memCells, State.reset.mem.read a = 0) ∧
  (∀ (i : Instr) (s t : State) (a : Fin Config.memCells), exec i s = .next t →
    (∀ ra, i ≠ .store ra (a : Nat)) → t.mem.read a = s.mem.read a) ∧
  assemble ['I'] "LOAD R3 I10".toList = some 0x23000000000A#48

/-- R112. -/
def Obligations.StoreEffect : Prop :=
  (∀ (ra : RegField) (imm : Int) (s : State),
    encode (.store ra imm) = packWord 0x3 ra 0 0 (wrap imm) ∧
    (∀ (r : Fin Config.numRegs) (a : Fin Config.memCells), ra.toNat = r → imm = (a : Nat) →
      ∃ m, exec (.store ra imm) s = .next { s with mem := m, pc := s.pc + 1 } ∧
        m.read a = s.reg r ∧ ∀ b : Nat, b ≠ a → m.read b = s.mem.read b) ∧
    (Config.numRegs ≤ ra.toNat ∨ imm < 0 ∨ (Config.memCells : Int) ≤ imm →
      exec (.store ra imm) s = .next { s with pc := s.pc + 1 })) ∧
  assemble [] "STORE 10 R2".toList = some 0x32000000000A#48

/-- R113. -/
def Obligations.MoveEffect : Prop :=
  (∀ (ra rb : RegField) (s : State),
    encode (.move ra rb) = packWord 0x4 ra rb 0 0 ∧
    (∀ d a : Fin Config.numRegs, ra.toNat = d → rb.toNat = a →
      exec (.move ra rb) s = .next { s with regs := s.regs.set d (s.reg a), pc := s.pc + 1 }) ∧
    (Config.numRegs ≤ ra.toNat ∨ Config.numRegs ≤ rb.toNat →
      exec (.move ra rb) s = .next { s with pc := s.pc + 1 })) ∧
  assemble [] "MOVE R1 R0".toList = some 0x410000000000#48

/-- spec/42_arithmetic_logic.md R120: the exact sum, reduced by `wrap`. -/
def Obligations.AddEffect : Prop :=
  (∀ (ra rb rc : RegField) (s : State),
    encode (.add ra rb rc) = packWord 0x5 ra rb rc 0 ∧
    (∀ d a b : Fin Config.numRegs, ra.toNat = d → rb.toNat = a → rc.toNat = b →
      exec (.add ra rb rc) s =
        .next { s with regs := s.regs.set d (wrap (signed (s.reg a) + signed (s.reg b))), pc := s.pc + 1 }) ∧
    (Config.numRegs ≤ ra.toNat ∨ Config.numRegs ≤ rb.toNat ∨ Config.numRegs ≤ rc.toNat →
      exec (.add ra rb rc) s = .next { s with pc := s.pc + 1 })) ∧
  assemble [] "ADD R2 R0 R1".toList = some 0x520100000000#48

/-- R121: the second operand minus the third, reduced by `wrap`. -/
def Obligations.SubEffect : Prop :=
  (∀ (ra rb rc : RegField) (s : State),
    encode (.sub ra rb rc) = packWord 0x6 ra rb rc 0 ∧
    (∀ d a b : Fin Config.numRegs, ra.toNat = d → rb.toNat = a → rc.toNat = b →
      exec (.sub ra rb rc) s =
        .next { s with regs := s.regs.set d (wrap (signed (s.reg a) - signed (s.reg b))), pc := s.pc + 1 }) ∧
    (Config.numRegs ≤ ra.toNat ∨ Config.numRegs ≤ rb.toNat ∨ Config.numRegs ≤ rc.toNat →
      exec (.sub ra rb rc) s = .next { s with pc := s.pc + 1 })) ∧
  (∀ x y : Word, -(2 ^ 31) ≤ signed x - signed y → signed x - signed y ≤ 2 ^ 31 - 1 →
    (signed (wrap (signed x - signed y)) < 0 ↔ signed x < signed y)) ∧
  assemble [] "SUB R0 R0 R2".toList = some 0x600200000000#48

/-- R122 and R123: the result is given bit by bit. -/
def Obligations.BitwiseEffect : Prop :=
  (∀ (ra rb rc : RegField) (s : State),
    encode (.and ra rb rc) = packWord 0x7 ra rb rc 0 ∧ encode (.or ra rb rc) = packWord 0x8 ra rb rc 0 ∧
    (∀ d a b : Fin Config.numRegs, ra.toNat = d → rb.toNat = a → rc.toNat = b →
      (∃ v : Word, exec (.and ra rb rc) s = .next { s with regs := s.regs.set d v, pc := s.pc + 1 } ∧
        ∀ k : Nat, k < 32 → v.getLsbD k = ((s.reg a).getLsbD k && (s.reg b).getLsbD k)) ∧
      ∃ v : Word, exec (.or ra rb rc) s = .next { s with regs := s.regs.set d v, pc := s.pc + 1 } ∧
        ∀ k : Nat, k < 32 → v.getLsbD k = ((s.reg a).getLsbD k || (s.reg b).getLsbD k)) ∧
    (Config.numRegs ≤ ra.toNat ∨ Config.numRegs ≤ rb.toNat ∨ Config.numRegs ≤ rc.toNat →
      exec (.and ra rb rc) s = .next { s with pc := s.pc + 1 } ∧
      exec (.or ra rb rc) s = .next { s with pc := s.pc + 1 })) ∧
  assemble [] "AND R3 R1 R2".toList = some 0x731200000000#48 ∧
  assemble [] "OR R3 R1 R2".toList = some 0x831200000000#48

/-- spec/43_control_transfer.md R131. -/
def Obligations.BranchEffect : Prop :=
  (∀ (imm : Int) (s : State),
    encode (.branch imm) = packWord 0x9 0 0 0 (wrap imm) ∧
    exec (.branch imm) s =
      .next { s with pc := if 0 ≤ imm ∧ imm < s.prog.length then wrap imm else s.pc + 1 }) ∧
  assemble [] "BRANCH 9".toList = some 0x900000000009#48

/-- R132. -/
def Obligations.BranchIfZeroEffect : Prop :=
  (∀ (imm : Int) (s : State),
    encode (.bezero imm) = packWord 0xA 0 0 0 (wrap imm) ∧
    exec (.bezero imm) s =
      .next { s with pc := if s.reg 0 = 0 ∧ 0 ≤ imm ∧ imm < s.prog.length then wrap imm else s.pc + 1 }) ∧
  assemble [] "BEZERO 3".toList = some 0xA00000000003#48

/-- R133: negative is bit 31. -/
def Obligations.BranchIfNegativeEffect : Prop :=
  (∀ (imm : Int) (s : State),
    encode (.bneg imm) = packWord 0xB 0 0 0 (wrap imm) ∧
    exec (.bneg imm) s =
      .next { s with
        pc := if (s.reg 0).getLsbD 31 = true ∧ 0 ≤ imm ∧ imm < s.prog.length then wrap imm else s.pc + 1 }) ∧
  assemble [] "BNEG 0".toList = some 0xB00000000000#48

/-- spec/44_system.md R140: the instruction, its encodings, and its step, which is traced and may end the run. -/
def Obligations.NopEffect : Prop :=
  (∀ s : State, exec .nop s = .next { s with pc := s.pc + 1 }) ∧
  encode .nop = 0xC00000000000#48 ∧ assemble [] "NOP".toList = some 0xC00000000000#48 ∧
  (∀ w : InstrWord, opcodeField w = 0xC#4 → decode w = .nop) ∧
  ∀ (s : State) (w : InstrWord), s.status = .running → s.fetch = some w → opcodeField w = 0xC#4 →
    ∃ t, t = { s with pc := s.pc + 1, trace := s.trace ++ [{ pc := s.pc, word := w }] } ∧ step s = .next t ∧
      (signed s.pc + 1 = s.prog.length → t.status = .outOfRange)

/-- R141: HALT sets the flag and nothing else, whatever its low 44 bits; the status is then HALTED, and no run goes on
from there. Its step traces it last and leaves `pc` at its index. -/
def Obligations.HaltEffect : Prop :=
  (∀ s : State, exec .halt s = .next { s with halted := true }) ∧
  (∀ s : State, s.halted = true → s.status = .halted ∧ ∀ n : Nat, run n s = .next s) ∧
  encode .halt = 0xD00000000000#48 ∧ assemble [] "HALT".toList = some 0xD00000000000#48 ∧
  (∀ w : InstrWord, opcodeField w = 0xD#4 → decode w = .halt) ∧
  ∀ (s : State) (w : InstrWord), s.status = .running → s.fetch = some w → opcodeField w = 0xD#4 →
    step s = .next { s with halted := true, trace := s.trace ++ [{ pc := s.pc, word := w }] }

/-- R142: the unrecognized instruction, in its three rows, reports the fetched word and advances; its step
is traced and may end the run. -/
def Obligations.UnrecognizedEffect : Prop :=
  (∀ (i : Instr) (s : State) (w : InstrWord), i = .unrec0 ∨ i = .unrecE ∨ i = .unrecF →
    0 ≤ signed s.pc → signed s.pc < s.prog.length → s.prog[s.pc.toNat]? = some w →
    exec i s = .next { s with pc := s.pc + 1, diag := s.diag ++ [{ pc := s.pc, word := w }] }) ∧
  (∀ w : InstrWord, (decode w).kind = .unrec ↔
    opcodeField w = 0x0#4 ∨ opcodeField w = 0xE#4 ∨ opcodeField w = 0xF#4) ∧
  encodeCanonical .unrec0 = 0x000000000000#48 ∧ encodeCanonical .unrecE = 0x000000000000#48 ∧
  encodeCanonical .unrecF = 0x000000000000#48 ∧ assemble [] "FOO R1".toList = some 0x000000000000#48 ∧
  ∀ (s : State) (w : InstrWord), s.status = .running → s.fetch = some w → (decode w).kind = .unrec →
    ∃ t, t = { s with
        pc := s.pc + 1, trace := s.trace ++ [{ pc := s.pc, word := w }],
        diag := s.diag ++ [{ pc := s.pc, word := w }] } ∧ step s = .next t ∧
      (signed s.pc + 1 = s.prog.length → t.status = .outOfRange)

/-! ### Frames -/

/-- The frame of LOAD (both forms), MOVE, ADD, SUB, AND and OR: every register but the destination, every cell of
memory, the flag, the program and both outputs are unchanged. -/
def Obligations.RegisterWriteFrame : Prop :=
  ∀ (i : Instr) (s t : State) (ra : RegField), i.destField = some ra → exec i s = .next t →
    (∀ j : Fin Config.numRegs, ra.toNat ≠ j → t.reg j = s.reg j) ∧
    (∀ b : Nat, t.mem.read b = s.mem.read b) ∧
    t.halted = s.halted ∧ t.prog = s.prog ∧ t.trace = s.trace ∧ t.diag = s.diag

/-- The frame of STORE: every register, the flag, the program and both outputs are unchanged, and every cell but the one
stored to. With an invalid operand nothing is stored. -/
def Obligations.StoreFrame : Prop :=
  ∀ (ra : RegField) (imm : Int) (s t : State), exec (.store ra imm) s = .next t →
    t.regs = s.regs ∧ t.halted = s.halted ∧ t.prog = s.prog ∧ t.trace = s.trace ∧ t.diag = s.diag ∧
    (∀ a, addrIndex imm = some a → ∀ b : Nat, b ≠ a → t.mem.read b = s.mem.read b) ∧
    (regIndex ra = none ∨ addrIndex imm = none → ∀ b : Nat, t.mem.read b = s.mem.read b)

/-- The frame of BRANCH, BEZERO, BNEG, NOP, HALT and the unrecognized instruction: no register, no cell, not the program
and not the trace. HALT alone writes the flag, and the unrecognized instruction alone the diagnostic channel. -/
def Obligations.ControlAndSystemFrame : Prop :=
  ∀ (i : Instr) (s t : State), i.destField = none → i.kind ≠ .store → exec i s = .next t →
    t.regs = s.regs ∧ (∀ b : Nat, t.mem.read b = s.mem.read b) ∧ t.prog = s.prog ∧ t.trace = s.trace ∧
    (i.kind ≠ .halt → t.halted = s.halted) ∧ (i.kind ≠ .unrec → t.diag = s.diag)

/-! ### Memory and arithmetic -/

/-- spec/20_memory.md R39: a LOAD from a cell returns the value of the STORE to it just before, and a LOAD from another
cell what that cell held. -/
def Obligations.LoadReturnsLatestStore : Prop :=
  ∀ (rs rd : RegField) (a b : Fin Config.memCells) (r d : Fin Config.numRegs) (s : State),
    rs.toNat = r → rd.toNat = d →
    ∃ t u, exec (.store rs (a : Nat)) s = .next t ∧ exec (.loadMem rd (b : Nat)) t = .next u ∧
      u.reg d = if b = a then s.reg r else s.mem.read b

/-- spec/00_scope.md R7: `wrap(z)` is the unique 32-bit value congruent to `z` modulo `2^32`. -/
def Obligations.WrapIsUniqueCongruentValue : Prop :=
  ∀ (z : Int) (v : Word), v = wrap z ↔ (signed v - z) % 2 ^ 32 = 0

/-- spec/42_arithmetic_logic.md R124: ADD and SUB reduce the exact result modulo 2^32, the bits are the same whether the
operands are read signed or unsigned, AND and OR act bit by bit, and the corners of the rule's table. -/
def Obligations.ArithmeticWraps : Prop :=
  (∀ x y : Word, (signed (aluAdd x y) - (signed x + signed y)) % 2 ^ 32 = 0 ∧
    (signed (aluSub x y) - (signed x - signed y)) % 2 ^ 32 = 0 ∧
    aluAdd x y = wrap ((x.toNat : Int) + y.toNat) ∧ aluSub x y = wrap ((x.toNat : Int) - y.toNat) ∧
    ∀ k : Nat, (aluAnd x y).getLsbD k = (x.getLsbD k && y.getLsbD k) ∧
      (aluOr x y).getLsbD k = (x.getLsbD k || y.getLsbD k)) ∧
  (∀ r ∈ ([(2147483647, 1, -2147483648), (-2147483648, -1, 2147483647), (-2147483648, -2147483648, 0),
      (2147483647, 2147483647, -2), (-5, 5, 0)] : List (Int × Int × Int)),
    signed (aluAdd (wrap r.1) (wrap r.2.1)) = r.2.2) ∧
  (∀ r ∈ ([(-2147483648, 1, 2147483647), (2147483647, -1, -2147483648), (0, -2147483648, -2147483648),
      (3, 5, -2), (-3, -5, 2)] : List (Int × Int × Int)),
    signed (aluSub (wrap r.1) (wrap r.2.1)) = r.2.2) ∧
  signed (aluAnd (wrap (-1)) (wrap 305419896)) = 305419896 ∧
  signed (aluAnd (wrap (-2147483648)) (wrap 2147483647)) = 0 ∧
  signed (aluOr (wrap (-2147483648)) (wrap 2147483647)) = -1 ∧ signed (aluOr (wrap 0) (wrap 0)) = 0

/-- The law the spec states under R125 and marks as derived from R120, R121 and R124: after `ADD R0 R1 R2` then `SUB
R0 R0 R2`, `R0` holds `R1`, and `R1` and `R2` are unchanged, in every state. -/
def Obligations.AddSubInverseLaw : Prop :=
  ∀ s : State, ∃ t u, exec (.add 0 1 2) s = .next t ∧ exec (.sub 0 0 2) t = .next u ∧
    u.reg 0 = s.reg 1 ∧ u.reg 1 = s.reg 1 ∧ u.reg 2 = s.reg 2 ∧
    (u.reg 0 = s.reg 0 ↔ s.reg 0 = s.reg 1)

/-! ### Status and run -/

/-- spec/10_state.md R20: the status is a function of `halted`, `pc` and `PROG_LEN`; under the invariant OUT_OF_RANGE
means exactly `pc = PROG_LEN`. -/
def Obligations.StatusOfState : Prop :=
  (∀ s : State, (s.status = .halted ↔ s.halted = true) ∧
    (s.status = .outOfRange ↔ s.halted = false ∧ ¬ (0 ≤ signed s.pc ∧ signed s.pc < s.prog.length)) ∧
    (s.status = .running ↔ s.halted = false ∧ 0 ≤ signed s.pc ∧ signed s.pc < s.prog.length)) ∧
  ∀ s : State, s.Inv → (s.status = .outOfRange ↔ s.halted = false ∧ signed s.pc = s.prog.length)

/-- spec/40_execution_cycle.md R101: with no program, seeded or not, no step is taken. -/
def Obligations.EmptyProgramRunsZeroSteps : Prop :=
  ∀ (pairs : List (Int × Int)) (s : State), State.reset.seedMemory pairs = .next s →
    (∀ n : Nat, run n s = .next s) ∧ s.status = .outOfRange ∧ s.pc = 0 ∧ s.trace = [] ∧ s.diag = [] ∧
      s.regs = State.reset.regs

/-- R99, R100: the run loop. In a RUNNING state a run takes the step and goes on from where it leads; in a terminal state
it takes none. So a longer budget extends a shorter run, and a run stays in the first terminal state it meets. The budget
is the model's own (log entry 15). -/
def Obligations.RunEndsAtFirstTerminalState : Prop :=
  (∀ s : State, run 0 s = .next s) ∧
  (∀ (n : Nat) (s t : State), s.status = .running → step s = .next t → run (n + 1) s = run n t) ∧
  (∀ (n : Nat) (s : State), s.terminal → run n s = .next s) ∧
  (∀ (n m : Nat) (s t : State), run n s = .next t → run (n + m) s = run m t) ∧
  ∀ (n m : Nat) (s t : State), run n s = .next t → t.terminal → run (n + m) s = .next t

/-- R100: only falling off the end takes `pc` out of range. A step that does so processed the last instruction, and
leaves `pc = PROG_LEN`. -/
def Obligations.OnlyFallingOffLeavesProgram : Prop :=
  ∀ s t : State, s.Inv → s.status = .running → step s = .next t → t.status = .outOfRange →
    signed s.pc = (s.prog.length : Int) - 1 ∧ signed t.pc = s.prog.length ∧ t.halted = false

/-! ### Outputs and host -/

/-- The two outputs as pulses: the trace output of spec/40_execution_cycle.md R92 in every step, and the diagnostic output
of spec/60_exceptions.md R155 exactly in the step that executes an UNREC, with that step's `pc` and word. That the pulses
are views of the coming step, at the state's width of `pc`, is the model's reading (log entry 12). -/
def Obligations.PulsesAreWhatTheStepReports : Prop :=
  (∀ s t : State, step s = .next t →
    t.trace = s.trace ++ s.tracePulse.toList ∧ t.diag = s.diag ++ s.diagPulse.toList) ∧
  ∀ (s : State) (e : Malformed), s.diagPulse = some e ↔
    s.status = .running ∧ s.fetch = some e.word ∧ e.pc = s.pc ∧
      (opcodeField e.word = 0x0#4 ∨ opcodeField e.word = 0xE#4 ∨ opcodeField e.word = 0xF#4)

/-- spec/70_reset_and_hazards.md R175 and R171. Reset is allowed in every phase and leaves the program store as it was (the
model's reading, log entry 7). The loader's moves and `start` are allowed in the LOAD phase only, and a load and a seeding
once in it; the reading of the results, and of a cell through its port, in the REPORT phase only. `start` and the reading
touch no core state. The first load of a program that fits, the first valid seeding and the first pulse for a cell
complete, and so do the `rst` and `start` ports as the moves they are. That a move without a meaning is refused, in a wrong phase or a second time, is the model's choice
(log entry 11 for the moves, log entry 12 for the ports). -/
def Obligations.HostMovesByPhase : Prop :=
  (∀ y : System, y.hostMove .reset =
    .next { phase := .load, core := { State.reset with prog := y.core.prog }, loaded := false, seeding := .none }) ∧
  (∀ (y : System) (m : HostMove), m ≠ .reset → y.phase ≠ .load → y.hostMove m = .refused .outOfPhase) ∧
  (∀ y : System, y.phase = .load → y.hostMove .start = .next { y with phase := .run }) ∧
  (∀ (y : System) (words : List InstrWord), y.phase = .load → y.loaded = false →
    (words.length ≤ 32 →
      y.hostMove (.loadWords words) = .next { y with loaded := true, core := { y.core with prog := words } }) ∧
    (32 < words.length → y.hostMove (.loadWords words) = .refused .programTooLong)) ∧
  (∀ (y : System) (prefixes : List Char) (lines : List Line), y.phase = .load → y.loaded = false →
    (∀ words, lines.mapM (assemble prefixes) = some words → words.length ≤ 32 →
      y.hostMove (.loadSource prefixes lines) =
        .next { y with loaded := true, core := { y.core with prog := words } }) ∧
    (∀ words, lines.mapM (assemble prefixes) = some words → 32 < words.length →
      y.hostMove (.loadSource prefixes lines) = .refused .programTooLong) ∧
    (lines.mapM (assemble prefixes) = none →
      y.hostMove (.loadSource prefixes lines) = .refused .literalOutOfRange)) ∧
  (∀ (y : System) (pairs : List (Int × Int)), y.phase = .load → y.seeding = .none →
    (∀ s, y.core.seedMemory pairs = .next s →
      y.hostMove (.seed pairs) = .next { y with seeding := .set, core := s }) ∧
    ∀ r, y.core.seedMemory pairs = .refused r → y.hostMove (.seed pairs) = .refused r) ∧
  (∀ (y : System) (addr : BitVec 5) (data : Word), y.phase = .load →
    (∀ cells, (y.seeding = .none ∧ cells = []) ∨ y.seeding = .port cells →
      (addr ∉ cells → ∃ m,
        y.seedPort true addr data =
          .next { y with seeding := .port (addr :: cells), core := { y.core with mem := m } } ∧
        m.read addr.toNat = data ∧ ∀ b : Nat, b ≠ addr.toNat → m.read b = y.core.mem.read b) ∧
      (addr ∈ cells → y.seedPort true addr data = .refused .badSeeds)) ∧
    (y.seeding = .set → y.seedPort true addr data = .refused .alreadySeeded)) ∧
  (∀ (y : System) (addr : BitVec 5) (data : Word), y.seedPort false addr data = .next y) ∧
  (∀ y : System, y.rstPort true = y.hostMove .reset ∧ y.rstPort false = .next y ∧
    y.startPort true = y.hostMove .start ∧ y.startPort false = .next y) ∧
  (∀ (y z : System) (m : HostMove), m ≠ .reset → m ≠ .start → y.hostMove m = .next z →
    z.phase = .load ∧ z.core.regs = y.core.regs ∧ z.core.pc = y.core.pc ∧ z.core.halted = y.core.halted ∧
      z.core.trace = y.core.trace ∧ z.core.diag = y.core.diag) ∧
  (∀ (y z : System) (words : List InstrWord), y.hostMove (.loadWords words) = .next z →
    y.loaded = false ∧ z.loaded = true) ∧
  (∀ (y z : System) (prefixes : List Char) (lines : List Line), y.hostMove (.loadSource prefixes lines) = .next z →
    y.loaded = false ∧ z.loaded = true) ∧
  (∀ (y z : System) (pairs : List (Int × Int)), y.hostMove (.seed pairs) = .next z →
    y.seeding = .none ∧ z.seeding = .set) ∧
  (∀ y : System, y.phase = .load → y.loaded = true →
    (∀ words, y.hostMove (.loadWords words) = .refused .alreadyLoaded) ∧
    ∀ prefixes lines, y.hostMove (.loadSource prefixes lines) = .refused .alreadyLoaded) ∧
  (∀ (y : System) (pairs : List (Int × Int)), y.phase = .load → y.seeding ≠ .none →
    y.hostMove (.seed pairs) = .refused .alreadySeeded) ∧
  (∀ (y : System) (addr : BitVec 5) (data : Word), y.phase ≠ .load →
    y.seedPort true addr data = .refused .outOfPhase) ∧
  (∀ (y : System) (addr : BitVec 5), y.phase = .report → y.memRdata addr = .next (y.core.mem.read addr.toNat)) ∧
  (∀ (y : System) (addr : BitVec 5), y.phase ≠ .report → y.memRdata addr = .refused .outOfPhase) ∧
  (∀ y : System, y.phase = .report → y.readResults = .next y.core.report) ∧
  ∀ y : System, y.phase ≠ .report → y.readResults = .refused .outOfPhase

/-- R172: a program of at most `M` words is loaded as it stands, a longer one is refused. -/
def Obligations.ProgramLoad : Prop :=
  ∀ (s : State) (words : List InstrWord),
    (words.length ≤ 32 → s.loadProgram words = .next { s with prog := words }) ∧
    (32 < words.length → s.loadProgram words = .refused .programTooLong)

/-- R173: a valid seed set writes exactly the cells it names, and any other set is refused. -/
def Obligations.SeedingWritesNamedCells : Prop :=
  ∀ (s : State) (pairs : List (Int × Int)),
    ((∀ p ∈ pairs, 0 ≤ p.1 ∧ p.1 < 32 ∧ -(2 ^ 31) ≤ p.2 ∧ p.2 ≤ 2 ^ 31 - 1) →
      pairs.Pairwise (fun p q => p.1 ≠ q.1) →
      ∃ m, s.seedMemory pairs = .next { s with mem := m } ∧
        (∀ p ∈ pairs, signed (m.read p.1.toNat) = p.2) ∧
        ∀ b : Nat, (∀ p ∈ pairs, p.1 ≠ b) → m.read b = s.mem.read b) ∧
    (¬ ((∀ p ∈ pairs, 0 ≤ p.1 ∧ p.1 < 32 ∧ -(2 ^ 31) ≤ p.2 ∧ p.2 ≤ 2 ^ 31 - 1) ∧
        pairs.Pairwise (fun p q => p.1 ≠ q.1)) →
      s.seedMemory pairs = .refused .badSeeds)

/-- R174: the report is the registers and the cells in index order and the trace in fetch order, with the final `pc`,
`halted` and status beside them. That the diagnostic events are reported too is the model's choice (log entry 8). -/
def Obligations.ReportInIndexOrder : Prop :=
  ∀ s : State,
    s.report.registers = [s.reg 0, s.reg 1, s.reg 2, s.reg 3] ∧ s.report.memory.length = 32 ∧
    (∀ a : Nat, a < 32 → s.report.memory[a]? = some (s.mem.read a)) ∧
    s.report.trace = s.trace ∧ s.report.pc = s.pc ∧ s.report.halted = s.halted ∧ s.report.status = s.status ∧
    s.report.diag = s.diag

/-- Every move of the host, every pulse of the seed port and every turn of the system keeps the invariant of the core under
its host (R171, R178). What a turn is (R99, R171): in the RUN phase the step of a RUNNING core, and the REPORT phase once the
core is in a terminal state; in the other phases nothing. That the REPORT phase takes a turn to begin is the model's reading
(log entry 11). -/
def Obligations.SystemInvariantKept : Prop :=
  (∀ (y : System) (t : State), y.phase = .run → y.core.status = .running → step y.core = .next t →
    y.tick = .next { y with core := t }) ∧
  (∀ y : System, y.phase = .run → y.core.terminal → y.tick = .next { y with phase := .report }) ∧
  (∀ y : System, y.phase ≠ .run → y.tick = .next y) ∧
  (∀ (y z : System) (m : HostMove), y.Inv → y.hostMove m = .next z → z.Inv) ∧
  (∀ (y z : System) (we : Bool) (addr : BitVec 5) (data : Word), y.Inv → y.seedPort we addr data = .next z → z.Inv) ∧
  ∀ y z : System, y.Inv → y.tick = .next z → z.Inv

/-! ### Source form -/

/-- The agreement the spec states under R74 of spec/30_encoding.md and marks as derived from R55, R66 to R70 and R93
to R95: for every line the assembler accepts, its word changes registers, memory, `pc` and `halted` exactly as the
document's text-level rules do for the line. -/
def Obligations.AssembledWordActsAsItsLine : Prop :=
  ∀ (prefixes : List Char) (line : Line) (w : InstrWord) (s : State),
    s.progLen ≤ Config.memCells → assemble prefixes line = some w →
    ∃ t u, exec (decode w) s = .next t ∧ textExec prefixes line s = some u ∧ t.tuple = u.tuple

/-- R72: the assembler refuses exactly the LOAD lines whose literal is outside the 32-bit signed range. -/
def Obligations.OnlyOversizedLiteralsRefused : Prop :=
  ∀ (prefixes : List Char) (line : Line), assemble prefixes line = none ↔
    ∃ reg src rest, tokenize line = ['L', 'O', 'A', 'D'] :: reg :: src :: rest ∧ isLiteral src = true ∧
      (litValue src < -(2 ^ 31) ∨ 2 ^ 31 - 1 < litValue src)

/-- R70: a line with no token, with an unknown mnemonic or with too few operands assembles to the all-zero word. -/
def Obligations.MalformedLinesAssembleToZero : Prop :=
  ∀ (prefixes : List Char) (line : Line),
    (tokenize line = [] → assemble prefixes line = some 0x000000000000#48) ∧
    ∀ (t : Token) (ops : List Token), tokenize line = t :: ops →
      ((∀ m : Mnemonic, m.spelling ≠ t) → assemble prefixes line = some 0x000000000000#48) ∧
      ∀ m : Mnemonic, m.spelling = t → ops.length < m.minOperands →
        assemble prefixes line = some 0x000000000000#48

/-- Tokens past the operands a mnemonic needs are ignored (R71, marked by the spec as derived from the minimum operand
counts of R64). -/
def Obligations.ExtraOperandsIgnored : Prop :=
  ∀ (prefixes : List Char) (m : Mnemonic) (ops extra : List Token), m.minOperands ≤ ops.length →
    assembleTokens prefixes (m.spelling :: (ops ++ extra)) = assembleTokens prefixes (m.spelling :: ops)

/-- R66: a register token is valid iff it is `R` and then a digit below `N`, whatever follows; else the field is 15. -/
def Obligations.RegisterTokenResolves : Prop :=
  (∀ (k : Fin Config.numRegs) (rest : List Char),
    (regOperand ('R' :: Char.ofNat (0x30 + k) :: rest)).toNat = k) ∧
  ∀ t : Token, (∀ (k : Fin Config.numRegs) (rest : List Char), t ≠ 'R' :: Char.ofNat (0x30 + k) :: rest) →
    regOperand t = 0xF#4

/-- R62 and R63, whole. The six whitespace characters; a comment changes nothing; a whitespace character before any comment
splits the line in two; no token is empty or has whitespace, a `#` or a lower-case letter in it; the letters `a` to `z`
read as `A` to `Z`; and tokens that are clean in this sense, joined by single spaces, are found again as they stand. -/
def Obligations.TokenizerYieldsCleanTokens : Prop :=
  (∀ c : Char, isSpaceChar c = true ↔ c.toNat ∈ [0x20, 0x09, 0x0A, 0x0B, 0x0C, 0x0D]) ∧
  (∀ line comment : Line, tokenize (line ++ '#' :: comment) = tokenize line) ∧
  (∀ (before after : Line) (c : Char), isSpaceChar c = true → '#' ∉ before →
    tokenize (before ++ c :: after) = tokenize before ++ tokenize after) ∧
  (∀ line : Line, (∀ c ∈ line, isSpaceChar c = true) → tokenize line = []) ∧
  (∀ line : Line, tokenize line =
    tokenize (line.map (fun c => if 0x61 ≤ c.toNat ∧ c.toNat ≤ 0x7A then Char.ofNat (c.toNat - 0x20) else c))) ∧
  (∀ (line : Line) (t : Token), t ∈ tokenize line →
    t ≠ [] ∧ ∀ c ∈ t, isSpaceChar c = false ∧ c ≠ '#' ∧ ¬ (0x61 ≤ c.toNat ∧ c.toNat ≤ 0x7A)) ∧
  ∀ ts : List Token,
    (∀ t ∈ ts, t ≠ [] ∧ ∀ c ∈ t, isSpaceChar c = false ∧ c ≠ '#' ∧ ¬ (0x61 ≤ c.toNat ∧ c.toNat ≤ 0x7A)) →
    tokenize (joinTokens ts) = ts

/-- R73: the disassembly of a word assembles to that word, for every set of prefixes that are capital letters. Which words
have a disassembly: those that `Encode` writes, with register fields that the assembler writes, a register that exists or
15; but the memory form of LOAD needs a prefix. Which line a word gets where several assemble to it is log entry 6. -/
def Obligations.DisassemblyAssemblesBack : Prop :=
  ∀ prefixes : List Char, (∀ c ∈ prefixes, 0x41 ≤ c.toNat ∧ c.toNat ≤ 0x5A) →
    (∀ (w : InstrWord) (line : Line), disassemble prefixes w = some line →
      assemble prefixes line = some w) ∧
    ∀ w : InstrWord, (disassemble prefixes w).isSome = true ↔
      unusedFieldsZero w = true ∧ opcodeField w ≠ 0xE#4 ∧ opcodeField w ≠ 0xF#4 ∧
      ((decode w).kind.format.usesRa = true → (raField w).toNat < 4 ∨ raField w = 0xF#4) ∧
      ((decode w).kind.format.usesRb = true → (rbField w).toNat < 4 ∨ rbField w = 0xF#4) ∧
      ((decode w).kind.format.usesRc = true → (rcField w).toNat < 4 ∨ rcField w = 0xF#4) ∧
      ((decode w).kind = .loadm → prefixes ≠ [])
end

