-- ==== Sys2Proof/Laws/Encoding.lean ====
section
/-! SUPPORT. The fields of a packed word, the word of its fields, and the opcode map as a bijection. -/

namespace Sys2Proof

theorem toNat_packWord (c : BitVec 4) (ra rb rc : RegField) (imm : Word) :
    (packWord c ra rb rc imm).toNat =
      c.toNat * 2 ^ 44 + ra.toNat * 2 ^ 40 + rb.toNat * 2 ^ 36 + rc.toNat * 2 ^ 32 + imm.toNat := by
  unfold packWord
  rw [BitVec.toNat_append, BitVec.toNat_append, BitVec.toNat_append, BitVec.toNat_append,
    ← Nat.shiftLeft_add_eq_or_of_lt ra.isLt, ← Nat.shiftLeft_add_eq_or_of_lt rb.isLt,
    ← Nat.shiftLeft_add_eq_or_of_lt rc.isLt, ← Nat.shiftLeft_add_eq_or_of_lt imm.isLt]
  simp only [Nat.shiftLeft_eq]
  omega

theorem toNat_opcodeField (w : InstrWord) : (opcodeField w).toNat = w.toNat / 2 ^ 44 := by
  have := w.isLt
  simp only [opcodeField, BitVec.extractLsb'_toNat, Nat.shiftRight_eq_div_pow]
  omega

theorem toNat_raField (w : InstrWord) : (raField w).toNat = w.toNat / 2 ^ 40 % 2 ^ 4 := by
  simp only [raField, BitVec.extractLsb'_toNat, Nat.shiftRight_eq_div_pow]

theorem toNat_rbField (w : InstrWord) : (rbField w).toNat = w.toNat / 2 ^ 36 % 2 ^ 4 := by
  simp only [rbField, BitVec.extractLsb'_toNat, Nat.shiftRight_eq_div_pow]

theorem toNat_rcField (w : InstrWord) : (rcField w).toNat = w.toNat / 2 ^ 32 % 2 ^ 4 := by
  simp only [rcField, BitVec.extractLsb'_toNat, Nat.shiftRight_eq_div_pow]

theorem toNat_immBits (w : InstrWord) : (immBits w).toNat = w.toNat % 2 ^ 32 := by
  simp only [immBits, BitVec.extractLsb'_toNat, Nat.shiftRight_eq_div_pow]
  omega

section Fields

variable (c : BitVec 4) (ra rb rc : RegField) (imm : Word)

@[simp] theorem opcodeField_packWord : opcodeField (packWord c ra rb rc imm) = c := by
  apply BitVec.eq_of_toNat_eq
  rw [toNat_opcodeField, toNat_packWord]
  have := ra.isLt; have := rb.isLt; have := rc.isLt; have := imm.isLt
  omega

@[simp] theorem raField_packWord : raField (packWord c ra rb rc imm) = ra := by
  apply BitVec.eq_of_toNat_eq
  rw [toNat_raField, toNat_packWord]
  have := ra.isLt; have := rb.isLt; have := rc.isLt; have := imm.isLt
  omega

@[simp] theorem rbField_packWord : rbField (packWord c ra rb rc imm) = rb := by
  apply BitVec.eq_of_toNat_eq
  rw [toNat_rbField, toNat_packWord]
  have := rb.isLt; have := rc.isLt; have := imm.isLt
  omega

@[simp] theorem rcField_packWord : rcField (packWord c ra rb rc imm) = rc := by
  apply BitVec.eq_of_toNat_eq
  rw [toNat_rcField, toNat_packWord]
  have := rc.isLt; have := imm.isLt
  omega

@[simp] theorem immBits_packWord : immBits (packWord c ra rb rc imm) = imm := by
  apply BitVec.eq_of_toNat_eq
  rw [toNat_immBits, toNat_packWord]
  have := imm.isLt
  omega

end Fields

/-- A word is the pack of its fields. -/
theorem packWord_fields (w : InstrWord) :
    packWord (opcodeField w) (raField w) (rbField w) (rcField w) (immBits w) = w := by
  apply BitVec.eq_of_toNat_eq
  rw [toNat_packWord, toNat_opcodeField, toNat_raField, toNat_rbField, toNat_rcField, toNat_immBits]
  have := w.isLt
  omega

/-- The mask of the table keeps the opcode field and clears the rest. -/
theorem and_opcodeMask (w : InstrWord) : w &&& opcodeMask = packWord (opcodeField w) 0 0 0 0 := by
  have h : opcodeMask = BitVec.allOnes 48 <<< 44 := by decide
  rw [h, ← BitVec.shiftLeft_ushiftRight]
  apply BitVec.eq_of_toNat_eq
  rw [toNat_packWord, toNat_opcodeField]
  simp [Nat.shiftLeft_eq, Nat.shiftRight_eq_div_pow]
  have := w.isLt
  omega

@[simp] theorem Op.code_ofCode (c : BitVec 4) : (Op.ofCode c).code = c := by
  revert c; decide

@[simp] theorem Op.ofCode_code (o : Op) : Op.ofCode o.code = o := by
  cases o <;> rfl

/-- `wrap` keeps the value of an integer that fits (R7, R54). -/
theorem signed_wrap_of_fits {z : Int} (h : immFits z = true) : signed (wrap z) = z := by
  simp only [immFits, Config.minInt, Config.maxInt, Bool.and_eq_true, decide_eq_true_eq] at h
  rw [signed, wrap, BitVec.toInt_ofInt]
  exact Int.bmod_eq_of_le (by omega) (by omega)

/-- The same with the readings of a word unfolded, as simp leaves it. -/
theorem bmod_of_fits {z : Int} (h : immFits z = true) : z.bmod 4294967296 = z := by
  have := signed_wrap_of_fits h
  rwa [signed, wrap, BitVec.toInt_ofInt] at this

@[simp] theorem wrap_signed (v : Word) : wrap (signed v) = v := BitVec.ofInt_toInt

/-- The signed value of a word fits. -/
theorem immFits_signed (v : Word) : immFits (signed v) = true := by
  have h1 := BitVec.le_toInt v
  have h2 := BitVec.toInt_lt (x := v)
  simp only [immFits, signed, Config.minInt, Config.maxInt, Bool.and_eq_true, decide_eq_true_eq]
  omega

/-- The row of a decoded word is the row of its opcode field. -/
@[simp] theorem op_decode (w : InstrWord) : (decode w).op = Op.ofCode (opcodeField w) := by
  unfold decode
  split <;> simp_all [Instr.op]

end Sys2Proof
end

