-- ==== Sys2Proof/Laws/Memory.lean ====
section
/-! SUPPORT. What the memory operations do, and that they keep the canonical form. -/

namespace Sys2Proof.Machine

@[simp] theorem Memory.read_nil (a : Nat) : Memory.read [] a = 0 := rfl

theorem Memory.read_cons (c : Cell) (m : Memory) (a : Nat) :
    Memory.read (c :: m) a = if c.1 = a then c.2 else Memory.read m a := rfl

theorem Memory.read_eq_zero {m : Memory} {a : Nat} (h : ∀ c ∈ m, c.1 ≠ a) : Memory.read m a = 0 := by
  induction m with
  | nil => rfl
  | cons c m ih =>
    rw [Memory.read_cons, if_neg (h c (by simp)), ih fun d hd => h d (by simp [hd])]

theorem Memory.read_put_self (m : Memory) (a : Nat) (v : Word) : (Memory.put m a v).read a = v := by
  induction m with
  | nil => simp [Memory.put, Memory.read_cons]
  | cons c m ih =>
    unfold Memory.put
    split
    · simp [Memory.read_cons]
    · split
      · simp [Memory.read_cons]
      · rename_i h; simp [Memory.read_cons, h, ih]

theorem Memory.read_put_ne {a b : Nat} (h : a ≠ b) (m : Memory) (v : Word) :
    (Memory.put m a v).read b = m.read b := by
  induction m with
  | nil => simp [Memory.put, Memory.read_cons, h]
  | cons c m ih =>
    unfold Memory.put
    split
    · simp [Memory.read_cons, h]
    · split
      · rename_i hc; subst hc; simp [Memory.read_cons, h]
      · simp [Memory.read_cons, ih]

theorem Memory.read_filter_ne {a b : Nat} (h : a ≠ b) (m : Memory) :
    Memory.read (m.filter (fun c => decide (c.1 ≠ a))) b = m.read b := by
  induction m with
  | nil => rfl
  | cons c m ih =>
    by_cases hc : c.1 = a
    · subst hc; simpa [Memory.read_cons, h] using ih
    · simp only [ne_eq, hc, not_false_eq_true, decide_true, List.filter_cons_of_pos, Memory.read_cons]
      rw [ih]

/-- A read after a write to the same cell gives the value written (R33). -/
@[simp] theorem Memory.read_write_self (m : Memory) (a : Nat) (v : Word) : (m.write a v).read a = v := by
  unfold Memory.write
  split
  · rename_i h; subst h; exact Memory.read_eq_zero (by simp)
  · exact Memory.read_put_self m a v

/-- A write leaves every other cell alone (R33). -/
theorem Memory.read_write_ne {a b : Nat} (h : a ≠ b) (m : Memory) (v : Word) :
    (m.write a v).read b = m.read b := by
  unfold Memory.write
  split
  · exact Memory.read_filter_ne h m
  · exact Memory.read_put_ne h m v

theorem Memory.mem_put {c : Cell} {a : Nat} {v : Word} {m : Memory} (h : c ∈ Memory.put m a v) :
    c = (a, v) ∨ c ∈ m := by
  induction m with
  | nil => simpa [Memory.put] using h
  | cons d m ih =>
    unfold Memory.put at h
    split at h
    · simpa using h
    · split at h
      · rcases List.mem_cons.1 h with h | h <;> simp [h]
      · rcases List.mem_cons.1 h with h | h
        · simp [h]
        · rcases ih h with h | h <;> simp [h]

theorem Memory.pairwise_put {m : Memory} (a : Nat) (v : Word) (h : m.Pairwise (fun x y => x.1 < y.1)) :
    (Memory.put m a v).Pairwise (fun x y => x.1 < y.1) := by
  induction m with
  | nil => simp [Memory.put]
  | cons d m ih =>
    obtain ⟨hd, hm⟩ := List.pairwise_cons.1 h
    unfold Memory.put
    split
    · rename_i hlt
      refine List.pairwise_cons.2 ⟨fun y hy => ?_, h⟩
      rcases List.mem_cons.1 hy with rfl | hy
      · exact hlt
      · exact Nat.lt_trans hlt (hd y hy)
    · split
      · rename_i he
        exact List.pairwise_cons.2 ⟨fun y hy => he ▸ hd y hy, hm⟩
      · rename_i hlt hne
        refine List.pairwise_cons.2 ⟨fun y hy => ?_, ih hm⟩
        rcases Memory.mem_put hy with rfl | hy
        · exact lt_of_le_of_ne (Nat.le_of_not_lt hlt) hne
        · exact hd y hy

/-- A write to a cell that exists keeps the canonical form. -/
theorem Memory.wf_write {m : Memory} {a : Nat} (ha : a < Config.memCells) (v : Word) (h : m.wf) :
    (m.write a v).wf := by
  unfold Memory.write
  split
  · exact ⟨h.1.filter _, fun c hc => h.2 c (List.mem_filter.1 hc).1⟩
  · rename_i hv
    refine ⟨Memory.pairwise_put a v h.1, fun c hc => ?_⟩
    rcases Memory.mem_put hc with rfl | hc
    · exact ⟨ha, hv⟩
    · exact h.2 c hc

theorem Memory.wf_nil : Memory.wf [] := ⟨List.Pairwise.nil, by simp⟩

theorem State.reset_mem_wf : State.reset.mem.wf := Memory.wf_nil

end Sys2Proof.Machine
end

