-- ==== Sys2Proof/Laws/State.lean ====
section
/-! SUPPORT. One lemma per field per update of the state, so that no proof unfolds a record update, and the frame of the
one update whose shape depends on a fetch. -/

namespace Sys2Proof.Machine

variable (s : State)

/-! `State.setReg`. -/

@[simp] theorem State.setReg_regs (i : Fin Config.numRegs) (v : Word) : (s.setReg i v).regs = s.regs.set i v := rfl
@[simp] theorem State.setReg_mem (i : Fin Config.numRegs) (v : Word) : (s.setReg i v).mem = s.mem := rfl
@[simp] theorem State.setReg_pc (i : Fin Config.numRegs) (v : Word) : (s.setReg i v).pc = s.pc := rfl
@[simp] theorem State.setReg_halted (i : Fin Config.numRegs) (v : Word) : (s.setReg i v).halted = s.halted := rfl
@[simp] theorem State.setReg_prog (i : Fin Config.numRegs) (v : Word) : (s.setReg i v).prog = s.prog := rfl
@[simp] theorem State.setReg_trace (i : Fin Config.numRegs) (v : Word) : (s.setReg i v).trace = s.trace := rfl
@[simp] theorem State.setReg_diag (i : Fin Config.numRegs) (v : Word) : (s.setReg i v).diag = s.diag := rfl

/-! `State.setCell`. -/

@[simp] theorem State.setCell_regs (a : Fin Config.memCells) (v : Word) : (s.setCell a v).regs = s.regs := rfl
@[simp] theorem State.setCell_mem (a : Fin Config.memCells) (v : Word) : (s.setCell a v).mem = s.mem.write a v := rfl
@[simp] theorem State.setCell_pc (a : Fin Config.memCells) (v : Word) : (s.setCell a v).pc = s.pc := rfl
@[simp] theorem State.setCell_halted (a : Fin Config.memCells) (v : Word) : (s.setCell a v).halted = s.halted := rfl
@[simp] theorem State.setCell_prog (a : Fin Config.memCells) (v : Word) : (s.setCell a v).prog = s.prog := rfl
@[simp] theorem State.setCell_trace (a : Fin Config.memCells) (v : Word) : (s.setCell a v).trace = s.trace := rfl
@[simp] theorem State.setCell_diag (a : Fin Config.memCells) (v : Word) : (s.setCell a v).diag = s.diag := rfl

/-! `State.setPc`. -/

@[simp] theorem State.setPc_regs (t : Word) : (s.setPc t).regs = s.regs := rfl
@[simp] theorem State.setPc_mem (t : Word) : (s.setPc t).mem = s.mem := rfl
@[simp] theorem State.setPc_pc (t : Word) : (s.setPc t).pc = t := rfl
@[simp] theorem State.setPc_halted (t : Word) : (s.setPc t).halted = s.halted := rfl
@[simp] theorem State.setPc_prog (t : Word) : (s.setPc t).prog = s.prog := rfl
@[simp] theorem State.setPc_trace (t : Word) : (s.setPc t).trace = s.trace := rfl
@[simp] theorem State.setPc_diag (t : Word) : (s.setPc t).diag = s.diag := rfl

/-! `State.advance`. -/

@[simp] theorem State.advance_regs : (s.advance).regs = s.regs := rfl
@[simp] theorem State.advance_mem : (s.advance).mem = s.mem := rfl
@[simp] theorem State.advance_pc : (s.advance).pc = s.pc + 1 := rfl
@[simp] theorem State.advance_halted : (s.advance).halted = s.halted := rfl
@[simp] theorem State.advance_prog : (s.advance).prog = s.prog := rfl
@[simp] theorem State.advance_trace : (s.advance).trace = s.trace := rfl
@[simp] theorem State.advance_diag : (s.advance).diag = s.diag := rfl

/-! `State.setHalted`. -/

@[simp] theorem State.setHalted_regs : (s.setHalted).regs = s.regs := rfl
@[simp] theorem State.setHalted_mem : (s.setHalted).mem = s.mem := rfl
@[simp] theorem State.setHalted_pc : (s.setHalted).pc = s.pc := rfl
@[simp] theorem State.setHalted_halted : (s.setHalted).halted = true := rfl
@[simp] theorem State.setHalted_prog : (s.setHalted).prog = s.prog := rfl
@[simp] theorem State.setHalted_trace : (s.setHalted).trace = s.trace := rfl
@[simp] theorem State.setHalted_diag : (s.setHalted).diag = s.diag := rfl

/-! `State.emitTrace`. -/

@[simp] theorem State.emitTrace_regs (w : InstrWord) : (s.emitTrace w).regs = s.regs := rfl
@[simp] theorem State.emitTrace_mem (w : InstrWord) : (s.emitTrace w).mem = s.mem := rfl
@[simp] theorem State.emitTrace_pc (w : InstrWord) : (s.emitTrace w).pc = s.pc := rfl
@[simp] theorem State.emitTrace_halted (w : InstrWord) : (s.emitTrace w).halted = s.halted := rfl
@[simp] theorem State.emitTrace_prog (w : InstrWord) : (s.emitTrace w).prog = s.prog := rfl
@[simp] theorem State.emitTrace_trace (w : InstrWord) : (s.emitTrace w).trace = s.trace ++ [{ pc := s.pc, word := w }] := rfl
@[simp] theorem State.emitTrace_diag (w : InstrWord) : (s.emitTrace w).diag = s.diag := rfl

/-! `State.emitMalformed`. -/

@[simp] theorem State.emitMalformed_regs : s.emitMalformed.regs = s.regs := by
  unfold State.emitMalformed; split <;> rfl
@[simp] theorem State.emitMalformed_mem : s.emitMalformed.mem = s.mem := by
  unfold State.emitMalformed; split <;> rfl
@[simp] theorem State.emitMalformed_pc : s.emitMalformed.pc = s.pc := by
  unfold State.emitMalformed; split <;> rfl
@[simp] theorem State.emitMalformed_halted : s.emitMalformed.halted = s.halted := by
  unfold State.emitMalformed; split <;> rfl
@[simp] theorem State.emitMalformed_prog : s.emitMalformed.prog = s.prog := by
  unfold State.emitMalformed; split <;> rfl
@[simp] theorem State.emitMalformed_trace : s.emitMalformed.trace = s.trace := by
  unfold State.emitMalformed; split <;> rfl
@[simp] theorem State.emitMalformed_diag :
    s.emitMalformed.diag = s.diag ++ (s.fetch.map (fun w => { pc := s.pc, word := w : Malformed })).toList := by
  unfold State.emitMalformed; split <;> simp_all

/-! Reset. -/

@[simp] theorem State.reset_regs : State.reset.regs = Vector.replicate Config.numRegs 0 := rfl
@[simp] theorem State.reset_mem : State.reset.mem = [] := rfl
@[simp] theorem State.reset_pc : State.reset.pc = 0 := rfl
@[simp] theorem State.reset_halted : State.reset.halted = false := rfl
@[simp] theorem State.reset_prog : State.reset.prog = [] := rfl
@[simp] theorem State.reset_trace : State.reset.trace = [] := rfl
@[simp] theorem State.reset_diag : State.reset.diag = [] := rfl

/-! Views that read one field. -/

theorem State.progLen_eq : s.progLen = s.prog.length := rfl

@[simp] theorem State.reg_setReg_self (i : Fin Config.numRegs) (v : Word) : (s.setReg i v).reg i = v := by
  simp [State.reg]

@[simp] theorem State.reg_setReg_ne {i j : Fin Config.numRegs} (h : i ≠ j) (v : Word) :
    (s.setReg i v).reg j = s.reg j := by
  have : (i : Nat) ≠ j := fun e => h (Fin.ext e)
  simp [State.reg, Vector.getElem_set_ne, this]

theorem State.reg_congr {s t : State} (h : s.regs = t.regs) (i : Fin Config.numRegs) : s.reg i = t.reg i := by
  simp [State.reg, h]

theorem State.fetch_congr {s t : State} (hp : s.pc = t.pc) (hq : s.prog = t.prog) : s.fetch = t.fetch := by
  unfold State.fetch State.pcInRange State.progLen
  rw [hp, hq]

@[simp] theorem State.fetch_emitTrace (w : InstrWord) : (s.emitTrace w).fetch = s.fetch :=
  State.fetch_congr rfl rfl

end Sys2Proof.Machine
end

