-- ==== Sys2Proof/Laws/Ops.lean ====
section
/-! SUPPORT. For each shared operation one lemma that says everything it can do. -/

namespace Sys2Proof.Machine

/-! Operand resolution. -/

theorem regIndex_eq_some {r : RegField} {d : Fin Config.numRegs} : regIndex r = some d ↔ r.toNat = d := by
  unfold regIndex
  split
  · simp [Fin.ext_iff]
  · rename_i h
    simp only [reduceCtorEq, false_iff]
    intro e; exact h (e ▸ d.isLt)

theorem regIndex_eq_none {r : RegField} : regIndex r = none ↔ Config.numRegs ≤ r.toNat := by
  unfold regIndex
  split <;> simp <;> omega

theorem regIndex_isSome (r : RegField) : (regIndex r).isSome = regValid r := by
  unfold regIndex regValid
  split <;> simp_all

theorem addrIndex_eq_some {a : Int} {k : Fin Config.memCells} : addrIndex a = some k ↔ a = (k : Nat) := by
  have hk := k.isLt
  unfold addrIndex
  split
  · rename_i h; simp only [Option.some.injEq, Fin.ext_iff]; omega
  · rename_i h; simp only [reduceCtorEq, false_iff]; omega

theorem addrIndex_eq_none {a : Int} : addrIndex a = none ↔ a < 0 ∨ (Config.memCells : Int) ≤ a := by
  unfold addrIndex Config.memCells
  split <;> simp only [reduceCtorEq, false_iff, true_iff] <;> omega

theorem addrIndex_isSome (a : Int) : (addrIndex a).isSome = addrValid a := by
  have h := addrIndex_eq_none (a := a)
  unfold addrValid Config.memCells
  unfold Config.memCells at h
  cases ha : addrIndex a
  · simp [ha] at h ⊢; omega
  · simp [ha] at h ⊢; omega

theorem State.targetValid_iff (s : State) (t : Int) : s.targetValid t = true ↔ 0 ≤ t ∧ t < s.prog.length := by
  simp only [State.targetValid, Bool.and_eq_true, decide_eq_true_eq]
  exact Iff.rfl

/-! The shapes of instruction: the whole effect with all operands valid, only the advance with one invalid. -/

theorem State.writeDest_cases (s : State) (ra : RegField) (v : Word) :
    (∃ d, regIndex ra = some d ∧ s.writeDest ra v = (s.setReg d v).advance) ∨
      (regIndex ra = none ∧ s.writeDest ra v = s.advance) := by
  unfold State.writeDest
  cases regIndex ra <;> simp

theorem State.loadCell_cases (s : State) (ra : RegField) (imm : Int) :
    (∃ d a, regIndex ra = some d ∧ addrIndex imm = some a ∧
        s.loadCell ra imm = (s.setReg d (s.cell a)).advance) ∨
      ((regIndex ra = none ∨ addrIndex imm = none) ∧ s.loadCell ra imm = s.advance) := by
  unfold State.loadCell
  cases regIndex ra <;> cases addrIndex imm <;> simp

theorem State.storeCell_cases (s : State) (ra : RegField) (imm : Int) :
    (∃ r a, regIndex ra = some r ∧ addrIndex imm = some a ∧
        s.storeCell ra imm = (s.setCell a (s.reg r)).advance) ∨
      ((regIndex ra = none ∨ addrIndex imm = none) ∧ s.storeCell ra imm = s.advance) := by
  unfold State.storeCell
  cases regIndex ra <;> cases addrIndex imm <;> simp

theorem State.unary_cases (s : State) (ra rb : RegField) :
    (∃ d a, regIndex ra = some d ∧ regIndex rb = some a ∧ s.unary ra rb = (s.setReg d (s.reg a)).advance) ∨
      ((regIndex ra = none ∨ regIndex rb = none) ∧ s.unary ra rb = s.advance) := by
  unfold State.unary
  cases regIndex ra <;> cases regIndex rb <;> simp

theorem State.binary_cases (s : State) (f : Word → Word → Word) (ra rb rc : RegField) :
    (∃ d a b, regIndex ra = some d ∧ regIndex rb = some a ∧ regIndex rc = some b ∧
        s.binary f ra rb rc = (s.setReg d (f (s.reg a) (s.reg b))).advance) ∨
      ((regIndex ra = none ∨ regIndex rb = none ∨ regIndex rc = none) ∧
        s.binary f ra rb rc = s.advance) := by
  unfold State.binary
  cases regIndex ra <;> cases regIndex rb <;> cases regIndex rc <;> simp

theorem State.branchIf_cases (s : State) (condition : Bool) (imm : Int) :
    (condition = true ∧ s.targetValid imm = true ∧ s.branchIf condition imm = s.setPc (wrap imm)) ∨
      ((condition = false ∨ s.targetValid imm = false) ∧ s.branchIf condition imm = s.advance) := by
  unfold State.branchIf
  cases condition <;> cases s.targetValid imm <;> simp

/-! The ALU. -/

theorem aluAdd_eq (x y : Word) : aluAdd x y = x + y := by
  simp [aluAdd, BitVec.ofInt_add]

theorem aluSub_eq (x y : Word) : aluSub x y = x - y := by
  apply BitVec.eq_of_toInt_eq
  simp [aluSub, BitVec.toInt_ofInt, BitVec.toInt_sub]

theorem State.zeroTest_iff (s : State) : s.zeroTest = true ↔ s.reg 0 = 0 := by
  simp only [State.zeroTest, decide_eq_true_eq]
  exact BitVec.toInt_inj (y := (0 : Word))

/-! Status and fetch. -/

theorem State.status_running {s : State} :
    s.status = .running ↔ s.halted = false ∧ 0 ≤ signed s.pc ∧ signed s.pc < s.prog.length := by
  unfold State.status
  cases s.halted <;> simp [State.pcInRange]
  exact fun _ => Iff.rfl

theorem State.status_halted {s : State} : s.status = .halted ↔ s.halted = true := by
  unfold State.status
  cases s.halted <;> simp
  split <;> simp

/-- In a RUNNING core the fetch finds the word at `pc` (R91). -/
theorem State.fetch_of_running {s : State} (h : s.status = .running) :
    ∃ w, s.fetch = some w ∧ s.prog[s.pc.toNat]? = some w := by
  obtain ⟨-, h0, h1⟩ := State.status_running.1 h
  have hn : signed s.pc = (s.pc.toNat : Int) := by
    rw [signed, BitVec.toInt_eq_toNat_cond] at *
    split
    · rfl
    · rename_i hc; rw [if_neg hc] at h0; have := s.pc.isLt; omega
  have hl : s.pc.toNat < s.prog.length := by omega
  refine ⟨s.prog[s.pc.toNat], ?_, by simp [hl]⟩
  simp [State.fetch, State.pcInRange, State.progLen_eq, h0, h1, hl]

/-- Everything one turn of the run loop can do: hold in a terminal state, or process the fetched instruction. -/
theorem step_cases (s : State) :
    (s.status ≠ .running ∧ step s = .next s) ∨
      ∃ w, s.status = .running ∧ s.fetch = some w ∧ step s = exec (decode w) (s.emitTrace w) := by
  by_cases h : s.status = .running
  · obtain ⟨w, hw, -⟩ := State.fetch_of_running h
    exact .inr ⟨w, h, hw, by simp [step, h, hw]⟩
  · refine .inl ⟨h, ?_⟩
    unfold step
    cases hs : s.status <;> simp_all [State.hold]

end Sys2Proof.Machine
end

