-- ==== Sys2Proof/Laws/Exec.lean ====
section
/-! SUPPORT. Everything an instruction can do to the state, said once. -/

namespace Sys2Proof.Machine

/-- The six shapes of the state an instruction leaves. -/
inductive ExecShape (i : Instr) (s : State) : State → Prop where
  /-- The advance alone: NOP, an operand that is not valid, a branch not taken. -/
  | advanced (hh : i ≠ .halt) (hu : i.kind ≠ .unrec) : ExecShape i s s.advance
  /-- One register written, then the advance. -/
  | wroteReg (ra : RegField) (d : Fin Config.numRegs) (v : Word) (hi : i.destField = some ra)
      (hd : regIndex ra = some d) : ExecShape i s (s.setReg d v).advance
  /-- One cell written, then the advance. -/
  | wroteCell (ra : RegField) (imm : Int) (r : Fin Config.numRegs) (a : Fin Config.memCells)
      (hi : i = .store ra imm) (hr : regIndex ra = some r) (ha : addrIndex imm = some a) :
      ExecShape i s (s.setCell a (s.reg r)).advance
  /-- A branch taken to a valid target. -/
  | jumped (imm : Int) (hi : i = .branch imm ∨ i = .bezero imm ∨ i = .bneg imm)
      (ht : s.targetValid imm = true) : ExecShape i s (s.setPc (wrap imm))
  /-- The halt. -/
  | halted (hi : i = .halt) : ExecShape i s s.setHalted
  /-- The report of a malformed instruction, then the advance. -/
  | reported (hi : i.kind = .unrec) : ExecShape i s s.emitMalformed.advance

theorem ExecShape.of_binary {i : Instr} {s : State} {ra rb rc : RegField} (f : Word → Word → Word)
    (hd : i.destField = some ra) (hh : i ≠ .halt) (hu : i.kind ≠ .unrec) :
    ExecShape i s (s.binary f ra rb rc) := by
  rcases State.binary_cases s f ra rb rc with ⟨d, a, b, h, -, -, e⟩ | ⟨-, e⟩ <;> rw [e]
  · exact .wroteReg ra d _ hd h
  · exact .advanced hh hu

theorem ExecShape.of_branch {i : Instr} {s : State} (c : Bool) {imm : Int}
    (hi : i = .branch imm ∨ i = .bezero imm ∨ i = .bneg imm) : ExecShape i s (s.branchIf c imm) := by
  rcases State.branchIf_cases s c imm with ⟨-, ht, e⟩ | ⟨-, e⟩ <;> rw [e]
  · exact .jumped imm hi ht
  · exact .advanced (by rcases hi with rfl | rfl | rfl <;> nofun)
      (by rcases hi with rfl | rfl | rfl <;> nofun)

/-- Every next state an instruction gives has one of the six shapes. -/
theorem exec_cases {i : Instr} {s t : State} (h : exec i s = .next t) : ExecShape i s t := by
  cases i with
  | loadLit ra imm =>
    obtain rfl : s.writeDest ra (wrap imm) = t := by simpa [exec, execLoadLit] using h
    rcases State.writeDest_cases s ra (wrap imm) with ⟨d, hd, e⟩ | ⟨-, e⟩ <;> rw [e]
    · exact .wroteReg ra d _ rfl hd
    · exact .advanced nofun nofun
  | loadMem ra imm =>
    obtain rfl : s.loadCell ra imm = t := by simpa [exec, execLoadMem] using h
    rcases State.loadCell_cases s ra imm with ⟨d, a, hd, -, e⟩ | ⟨-, e⟩ <;> rw [e]
    · exact .wroteReg ra d _ rfl hd
    · exact .advanced nofun nofun
  | store ra imm =>
    obtain rfl : s.storeCell ra imm = t := by simpa [exec, execStore] using h
    rcases State.storeCell_cases s ra imm with ⟨r, a, hr, ha, e⟩ | ⟨-, e⟩ <;> rw [e]
    · exact .wroteCell ra imm r a rfl hr ha
    · exact .advanced nofun nofun
  | move ra rb =>
    obtain rfl : s.unary ra rb = t := by simpa [exec, execMove] using h
    rcases State.unary_cases s ra rb with ⟨d, a, hd, -, e⟩ | ⟨-, e⟩ <;> rw [e]
    · exact .wroteReg ra d _ rfl hd
    · exact .advanced nofun nofun
  | add ra rb rc => cases h; exact .of_binary aluAdd rfl nofun nofun
  | sub ra rb rc => cases h; exact .of_binary aluSub rfl nofun nofun
  | and ra rb rc => cases h; exact .of_binary aluAnd rfl nofun nofun
  | or ra rb rc => cases h; exact .of_binary aluOr rfl nofun nofun
  | branch imm => cases h; exact .of_branch _ (.inl rfl)
  | bezero imm => cases h; exact .of_branch _ (.inr (.inl rfl))
  | bneg imm => cases h; exact .of_branch _ (.inr (.inr rfl))
  | nop => cases h; exact .advanced nofun nofun
  | halt => cases h; exact .halted rfl
  | unrec0 => cases h; exact .reported rfl
  | unrecE => cases h; exact .reported rfl
  | unrecF => cases h; exact .reported rfl

/-- An instruction with a destination register is neither HALT nor unrecognized nor a branch nor a store. -/
theorem Instr.kind_of_destField {i : Instr} {ra : RegField} (h : i.destField = some ra) :
    i ≠ .halt ∧ i.kind ≠ .unrec ∧ i.kind ≠ .store ∧ i.kind ≠ .branch ∧ i.kind ≠ .bezero ∧ i.kind ≠ .bneg ∧
      i.kind ≠ .halt := by
  cases i <;> first | (cases h; done) | exact ⟨nofun, nofun, nofun, nofun, nofun, nofun, nofun⟩

/-- What one turn of the run loop did, read backwards from its next state. -/
theorem step_next {s t : State} (h : step s = .next t) :
    (s.status ≠ .running ∧ t = s) ∨
      ∃ w, s.status = .running ∧ s.fetch = some w ∧ s.prog[s.pc.toNat]? = some w ∧
        exec (decode w) (s.emitTrace w) = .next t := by
  rcases step_cases s with ⟨hn, hs⟩ | ⟨w, hr, hf, hs⟩
  · rw [hs] at h
    exact .inl ⟨hn, by cases h; rfl⟩
  · obtain ⟨w', hf', hp⟩ := State.fetch_of_running hr
    rw [hf] at hf'
    cases hf'
    exact .inr ⟨w, hr, hf, hp, hs ▸ h⟩

end Sys2Proof.Machine
end

