-- ==== Sys2Proof/Laws/PerInstr.lean ====
section
/-! SUPPORT. The statements made per instruction: the word of every instruction lies in its own row of the opcode table
(spec/30_encoding.md R57). -/

namespace Sys2Proof.Laws.RowMatch

/-- The encoding of the instruction agrees with its row's match word under the mask of the table. -/
def Statement (i : Instr) : Prop := encode i &&& opcodeMask = i.op.matchWord

/-- A word packed with a row's opcode lies in that row, whatever its other fields. -/
theorem packWord_in_row (o : Op) (ra rb rc : RegField) (imm : Word) :
    packWord o.code ra rb rc imm &&& opcodeMask = o.matchWord := by
  rw [and_opcodeMask, opcodeField_packWord]; rfl

theorem unrec0 : Statement .unrec0 := packWord_in_row _ _ _ _ _
theorem loadLit (ra : RegField) (imm : Int) : Statement (.loadLit ra imm) := packWord_in_row _ _ _ _ _
theorem loadMem (ra : RegField) (imm : Int) : Statement (.loadMem ra imm) := packWord_in_row _ _ _ _ _
theorem store (ra : RegField) (imm : Int) : Statement (.store ra imm) := packWord_in_row _ _ _ _ _
theorem move (ra : RegField) (rb : RegField) : Statement (.move ra rb) := packWord_in_row _ _ _ _ _
theorem add (ra : RegField) (rb : RegField) (rc : RegField) : Statement (.add ra rb rc) := packWord_in_row _ _ _ _ _
theorem sub (ra : RegField) (rb : RegField) (rc : RegField) : Statement (.sub ra rb rc) := packWord_in_row _ _ _ _ _
theorem and (ra : RegField) (rb : RegField) (rc : RegField) : Statement (.and ra rb rc) := packWord_in_row _ _ _ _ _
theorem or (ra : RegField) (rb : RegField) (rc : RegField) : Statement (.or ra rb rc) := packWord_in_row _ _ _ _ _
theorem branch (imm : Int) : Statement (.branch imm) := packWord_in_row _ _ _ _ _
theorem bezero (imm : Int) : Statement (.bezero imm) := packWord_in_row _ _ _ _ _
theorem bneg (imm : Int) : Statement (.bneg imm) := packWord_in_row _ _ _ _ _
theorem nop : Statement .nop := packWord_in_row _ _ _ _ _
theorem halt : Statement .halt := packWord_in_row _ _ _ _ _
theorem unrecE : Statement .unrecE := packWord_in_row _ _ _ _ _
theorem unrecF : Statement .unrecF := packWord_in_row _ _ _ _ _

end Sys2Proof.Laws.RowMatch
end

