-- ==== Sys2Proof/Laws/Session.lean ====
section
/-! SUPPORT. What the moves of the host can do when they are not refused, said once for each operation. -/

namespace Sys2Proof.Machine

/-- Seeding changes the memory alone. -/
theorem State.writeSeeds_frame (pairs : List (Int × Int)) (s : State) :
    ∃ m, s.writeSeeds pairs = { s with mem := m } := by
  induction pairs generalizing s with
  | nil => exact ⟨_, rfl⟩
  | cons p rest ih =>
    unfold State.writeSeeds
    split
    · exact ih (s.setCell _ (wrap p.2))
    · exact ih s

/-- Seeding keeps the memory in its canonical form. -/
theorem State.writeSeeds_wf (pairs : List (Int × Int)) (s : State) (h : s.mem.wf) :
    (s.writeSeeds pairs).mem.wf := by
  induction pairs generalizing s with
  | nil => exact h
  | cons p rest ih =>
    unfold State.writeSeeds
    split
    · rename_i a _
      exact ih _ (Memory.wf_write a.isLt _ h)
    · exact ih _ h

theorem State.seedMemory_next {s t : State} {pairs : List (Int × Int)} (h : s.seedMemory pairs = .next t) :
    seedsValid pairs = true ∧ t = s.writeSeeds pairs := by
  unfold State.seedMemory at h
  split at h
  · next hv => cases h; exact ⟨hv, rfl⟩
  · cases h

theorem State.loadProgram_next {s t : State} {words : List InstrWord} (h : s.loadProgram words = .next t) :
    t = { s with prog := words } ∧ words.length ≤ Config.memCells := by
  unfold State.loadProgram at h
  split at h
  · next hl => cases h; exact ⟨rfl, hl⟩
  · cases h

theorem State.loadSource_next {s t : State} {prefixes : List Char} {lines : List Line}
    (h : s.loadSource prefixes lines = .next t) :
    ∃ words, t = { s with prog := words } ∧ words.length ≤ Config.memCells := by
  unfold State.loadSource at h
  split at h
  · exact ⟨_, State.loadProgram_next h⟩
  · cases h

theorem System.withCore_next {y z : System} {o : Host.Outcome State Fault Refusal} (h : y.withCore o = .next z) :
    ∃ s, o = .next s ∧ z = { y with core := s } := by
  unfold System.withCore at h
  cases o <;> cases h
  exact ⟨_, rfl, rfl⟩

/-- A load that is not refused is the first since reset. -/
theorem System.loadOnce_next {y z : System} {o : Host.Outcome State Fault Refusal} (h : y.loadOnce o = .next z) :
    y.loaded = false ∧ ∃ s, o = .next s ∧ z = { y with loaded := true, core := s } := by
  unfold System.loadOnce at h
  split at h
  · cases h
  · next hl => exact ⟨by simpa using hl, System.withCore_next h⟩

/-- A seeding with a set that is not refused is the first since reset. -/
theorem System.seedOnce_next {y z : System} {pairs : List (Int × Int)} (h : y.seedOnce pairs = .next z) :
    y.seeding = .none ∧ seedsValid pairs = true ∧
      z = { y with seeding := .set, core := y.core.writeSeeds pairs } := by
  unfold System.seedOnce at h
  split at h
  · next hs =>
    obtain ⟨s, hm, rfl⟩ := System.withCore_next h
    obtain ⟨hv, rfl⟩ := State.seedMemory_next hm
    exact ⟨hs, hv, rfl⟩
  · cases h
  · cases h

/-- A pulse of the seed port that is not refused writes one cell in the LOAD phase, or is no pulse. -/
theorem System.seedPort_next {y z : System} {we : Bool} {addr : BitVec 5} {data : Word}
    (h : y.seedPort we addr data = .next z) :
    (we = false ∧ z = y) ∨
    (we = true ∧ y.phase = .load ∧ ∃ cells, addr ∉ cells ∧
      z = { y with core := y.core.setCell ⟨addr.toNat, addr.isLt⟩ data, seeding := .port (addr :: cells) }) := by
  have cell : ∀ cells, y.seedCell cells addr data = .next z → ∃ cells, addr ∉ cells ∧
      z = { y with core := y.core.setCell ⟨addr.toNat, addr.isLt⟩ data, seeding := .port (addr :: cells) } := by
    intro cells hc
    unfold System.seedCell at hc
    split at hc
    · cases hc
    · next hn => cases hc; exact ⟨cells, hn, rfl⟩
  cases we with
  | false => cases h; exact .inl ⟨rfl, rfl⟩
  | true =>
    unfold System.seedPort at h
    rw [if_pos rfl] at h
    split at h
    · next hp =>
      refine .inr ⟨rfl, hp, ?_⟩
      unfold System.seedInLoad at h
      split at h
      · exact cell _ h
      · exact cell _ h
      · cases h
    · cases h
    · cases h
    · cases h

end Sys2Proof.Machine
end

