-- ==== Sys2Proof/Tests/Slice0.lean ====
section
/-! SUPPORT. Tests of the model against the spec's worked encodings and test vectors (spec/30_encoding.md section 6,
spec/95_test_vectors.md), and the witnesses of the statements' hypotheses. -/

namespace Sys2Proof.Tests

open Sys2Proof Sys2Proof.Machine

/-! ### Well-formedness: an ill-formed term for its one check, in each constructor that has an `imm` -/

theorem test_wf_refuses_wide_literal : (Instr.loadLit 0 2147483648).wellFormed = false := by decide
theorem test_wf_refuses_low_literal : (Instr.loadLit 0 (-2147483649)).wellFormed = false := by decide
theorem test_wf_refuses_wide_address :
    (Instr.loadMem 0 2147483648).wellFormed = false ∧ (Instr.store 0 (-2147483649)).wellFormed = false := by decide
theorem test_wf_refuses_wide_target :
    (Instr.branch 2147483648).wellFormed = false ∧ (Instr.bezero (-2147483649)).wellFormed = false ∧
      (Instr.bneg 2147483648).wellFormed = false := by decide
theorem test_wf_accepts_invalid_operand :
    (Instr.loadLit 15 (-2147483648)).wellFormed = true ∧ (Instr.store 9 40).wellFormed = true := by decide

/-! ### Decoding: words written out from the field layout, and the rows of 95_test_vectors.md V2 -/

theorem test_decode_loads :
    decode 0x110000000063#48 = .loadLit 1 99 ∧ decode 0x100080000000#48 = .loadLit 0 (-2147483648) ∧
    decode 0x23000000000A#48 = .loadMem 3 10 ∧ decode 0x2F0000000005#48 = .loadMem 15 5 := by decide
theorem test_decode_store_move :
    decode 0x33000000001F#48 = .store 3 31 ∧ decode 0x4123DEADBEEF#48 = .move 1 2 := by decide
theorem test_decode_alu :
    decode 0x520100000000#48 = .add 2 0 1 ∧ decode 0x5FFF00000000#48 = .add 15 15 15 ∧
    decode 0x600200000000#48 = .sub 0 0 2 ∧ decode 0x731200000000#48 = .and 3 1 2 ∧
    decode 0x833000000000#48 = .or 3 3 0 := by decide
theorem test_decode_branches :
    decode 0x9000FFFFFFFF#48 = .branch (-1) ∧ decode 0xA12300000002#48 = .bezero 2 ∧
    decode 0xB000FFFFFFFE#48 = .bneg (-2) := by decide
theorem test_decode_system :
    decode 0xC12345678ABC#48 = .nop ∧ decode 0xDFFFFFFFFFFF#48 = .halt ∧
    decode 0x0ABCDEF01234#48 = .unrec0 ∧ decode 0xE00000000000#48 = .unrecE ∧
    decode 0xF00000000001#48 = .unrecF := by decide
theorem test_encode_worked :
    encode (.loadLit 1 (-1)) = 0x1100FFFFFFFF#48 ∧ encode (.store 2 10) = 0x32000000000A#48 ∧
    encode (.move 1 0) = 0x410000000000#48 ∧ encode (.sub 0 0 2) = 0x600200000000#48 ∧
    encode (.bneg (-2)) = 0xB000FFFFFFFE#48 ∧ encodeCanonical .unrecF = 0 := by decide
theorem test_table_word_is_the_word :
    decodeTableWord 48 0x520100000000 = some (.add 2 0 1) ∧ decodeTableWord 48 (2 ^ 48) = none := by decide

/-! ### The start state of 95_test_vectors.md V3 and V4, and one step from it -/

/-- R0=10, R1=-3, R2=7, R3=0; Mem[5]=42, Mem[31]=-9; `pc = 2`; `PROG_LEN = 6`, the word at index 2. -/
def v3 (w : InstrWord) : State where
  regs := #v[10, wrap (-3), 7, 0]
  mem := [(5, 42), (31, wrap (-9))]
  pc := 2
  halted := false
  prog := [0, 0, w, 0, 0, 0]
  trace := []
  diag := []

/-- A view of a state: the registers and the listed cells as integers, `pc`, the flag, and how many events were
reported. -/
structure View where
  regs : List Int
  mem : List (Nat × Int)
  pc : Int
  halted : Bool
  events : Nat
  deriving DecidableEq, Repr

/-- The view of the state one step on. -/
def after (s : State) : Option View :=
  match step s with
  | .next t => some ⟨t.regs.toList.map signed, t.mem.map (fun c => (c.1, signed c.2)), signed t.pc, t.halted, t.diag.length⟩
  | .fault _ => none
  | .refused _ => none

/-- The memory of the start state. -/
def mem0 : List (Nat × Int) := [(5, 42), (31, -9)]

theorem test_loadLit :
    after (v3 0x130080000000#48) = some ⟨[10, -3, 7, -2147483648], mem0, 3, false, 0⟩ ∧
    after (v3 0x140000000005#48) = some ⟨[10, -3, 7, 0], mem0, 3, false, 0⟩ := by decide
theorem test_loadMem_valid :
    after (v3 0x20000000001F#48) = some ⟨[-9, -3, 7, 0], mem0, 3, false, 0⟩ ∧
    after (v3 0x210000000000#48) = some ⟨[10, 0, 7, 0], mem0, 3, false, 0⟩ := by decide
theorem test_loadMem_invalid :
    after (v3 0x230000000020#48) = some ⟨[10, -3, 7, 0], mem0, 3, false, 0⟩ ∧
    after (v3 0x2300FFFFFFFF#48) = some ⟨[10, -3, 7, 0], mem0, 3, false, 0⟩ ∧
    after (v3 0x270000000005#48) = some ⟨[10, -3, 7, 0], mem0, 3, false, 0⟩ := by decide
theorem test_store_valid :
    after (v3 0x300000000000#48) = some ⟨[10, -3, 7, 0], [(0, 10), (5, 42), (31, -9)], 3, false, 0⟩ ∧
    after (v3 0x31000000001F#48) = some ⟨[10, -3, 7, 0], [(5, 42), (31, -3)], 3, false, 0⟩ ∧
    after (v3 0x330000000005#48) = some ⟨[10, -3, 7, 0], [(31, -9)], 3, false, 0⟩ := by decide
theorem test_store_invalid :
    after (v3 0x320000000020#48) = some ⟨[10, -3, 7, 0], mem0, 3, false, 0⟩ ∧
    after (v3 0x3200FFFFFFFF#48) = some ⟨[10, -3, 7, 0], mem0, 3, false, 0⟩ ∧
    after (v3 0x3F0000000005#48) = some ⟨[10, -3, 7, 0], mem0, 3, false, 0⟩ := by decide
theorem test_move :
    after (v3 0x401000000000#48) = some ⟨[-3, -3, 7, 0], mem0, 3, false, 0⟩ ∧
    after (v3 0x404000000000#48) = some ⟨[10, -3, 7, 0], mem0, 3, false, 0⟩ := by decide
theorem test_add :
    after (v3 0x530100000000#48) = some ⟨[10, -3, 7, 7], mem0, 3, false, 0⟩ ∧
    after (v3 0x500000000000#48) = some ⟨[20, -3, 7, 0], mem0, 3, false, 0⟩ ∧
    after (v3 0x53F100000000#48) = some ⟨[10, -3, 7, 0], mem0, 3, false, 0⟩ := by decide
theorem test_sub :
    after (v3 0x631000000000#48) = some ⟨[10, -3, 7, -13], mem0, 3, false, 0⟩ ∧
    after (v3 0x611100000000#48) = some ⟨[10, 0, 7, 0], mem0, 3, false, 0⟩ ∧
    after (v3 0x630400000000#48) = some ⟨[10, -3, 7, 0], mem0, 3, false, 0⟩ := by decide
theorem test_and :
    after (v3 0x731200000000#48) = some ⟨[10, -3, 7, 5], mem0, 3, false, 0⟩ ∧
    after (v3 0x739200000000#48) = some ⟨[10, -3, 7, 0], mem0, 3, false, 0⟩ := by decide
theorem test_or :
    after (v3 0x831200000000#48) = some ⟨[10, -3, 7, -1], mem0, 3, false, 0⟩ ∧
    after (v3 0x880200000000#48) = some ⟨[10, -3, 7, 0], mem0, 3, false, 0⟩ := by decide
theorem test_nop : after (v3 0xC12345678ABC#48) = some ⟨[10, -3, 7, 0], mem0, 3, false, 0⟩ := by decide
theorem test_halt : after (v3 0xD00000000000#48) = some ⟨[10, -3, 7, 0], mem0, 2, true, 0⟩ := by decide

/-- The trace and the events one step on. -/
def outputs (s : State) : List TraceEntry × List Malformed :=
  match step s with
  | .next t => (t.trace, t.diag)
  | .fault _ => ([], [])
  | .refused _ => ([], [])

theorem test_unrec_reports :
    outputs (v3 0x000000000000#48) = ([⟨2, 0x000000000000#48⟩], [⟨2, 0x000000000000#48⟩]) ∧
    outputs (v3 0xE00000000000#48) = ([⟨2, 0xE00000000000#48⟩], [⟨2, 0xE00000000000#48⟩]) ∧
    outputs (v3 0xF123456789AB#48) = ([⟨2, 0xF123456789AB#48⟩], [⟨2, 0xF123456789AB#48⟩]) := by decide
theorem test_skipped_is_traced_not_reported :
    outputs (v3 0x5F0100000000#48) = ([⟨2, 0x5F0100000000#48⟩], []) := by decide

/-! ### The rows of V5: `pc` after one step of the word at `pc`, and the status -/

/-- A state at `pc` in a program of `len` words, with `r0` in R0 and the word at `pc`. -/
def v5 (r0 : Int) (pc len : Nat) (w : InstrWord) : State :=
  { State.reset with
    regs := #v[wrap r0, 0, 0, 0]
    pc := BitVec.ofNat 32 pc
    prog := (List.replicate len 0).set pc w }

/-- `pc` and the status one step on. -/
def pcAfter (s : State) : Option (Int × Status) :=
  match step s with
  | .next t => some (signed t.pc, t.status)
  | .fault _ => none
  | .refused _ => none

theorem test_branch_taken :
    pcAfter (v5 0 4 6 0x900000000000#48) = some (0, .running) ∧
    pcAfter (v5 0 4 6 0x900000000004#48) = some (4, .running) := by decide
theorem test_branch_invalid_target :
    pcAfter (v5 0 4 6 0x900000000006#48) = some (5, .running) ∧
    pcAfter (v5 0 4 6 0x9000FFFFFFFF#48) = some (5, .running) ∧
    pcAfter (v5 0 5 6 0x90000000001F#48) = some (6, .outOfRange) := by decide
theorem test_bezero :
    pcAfter (v5 0 1 4 0xA00000000003#48) = some (3, .running) ∧
    pcAfter (v5 (-7) 1 4 0xA00000000003#48) = some (2, .running) ∧
    pcAfter (v5 0 3 4 0xA00000000004#48) = some (4, .outOfRange) := by decide
theorem test_bneg :
    pcAfter (v5 (-2147483648) 3 5 0xB00000000000#48) = some (0, .running) ∧
    pcAfter (v5 0 3 5 0xB00000000000#48) = some (4, .running) ∧
    pcAfter (v5 (-1) 3 5 0xB00000000005#48) = some (4, .running) := by decide

/-! ### Reset, terminal states, the placed instruction, the host -/

theorem test_reset_status : State.reset.status = .outOfRange := by decide
theorem test_halted_holds : step { v3 0 with halted := true } = .next { v3 0 with halted := true } := by rfl
theorem test_placed_word_runs_first :
    after (State.reset.withFetchWord 48 0x120000000009) = some ⟨[0, 0, 9, 0], [], 1, false, 0⟩ := by decide
theorem test_placed_word_in_a_program :
    ((v3 0).withFetchWord 48 0xD00000000000).prog = [0, 0, 0xD00000000000#48, 0, 0, 0] := by decide
theorem test_seed_then_report :
    (match State.reset.seedMemory [(5, 42), (31, -9)] with
      | .next s => (s.report.memory[5]?, s.report.memory[31]?, s.report.memory[6]?)
      | .fault _ => (none, none, none)
      | .refused _ => (none, none, none)) = (some 42, some (wrap (-9)), some 0) := by decide
theorem test_bad_seeds_refused :
    seedsValid [(32, 1)] = false ∧ seedsValid [(-1, 1)] = false ∧ seedsValid [(0, 2147483648)] = false ∧
    seedsValid [(3, 1), (3, 2)] = false := by decide

/-! ### The assembler: rows of V1 -/

theorem test_assemble_load :
    assemble [] "  LOAD   R0   5   # comment".toList = some 0x100000000005#48 ∧
    assemble [] "load r0 +5".toList = some 0x100000000005#48 ∧
    assemble [] "LOAD R0 -2147483648".toList = some 0x100080000000#48 ∧
    assemble [] "LOAD R0 2147483648".toList = none ∧
    assemble [] "LOAD R0 -".toList = some 0x2000FFFFFFFF#48 := by decide
theorem test_assemble_prefixes :
    assemble ['I', 'B'] "LOAD R0 B31".toList = some 0x20000000001F#48 ∧
    assemble [] "LOAD R0 B31".toList = some 0x2000FFFFFFFF#48 ∧
    assemble ['I', 'B'] "LOAD R0 II1".toList = some 0x2000FFFFFFFF#48 := by decide
theorem test_assemble_operands :
    assemble [] "STORE 10, R2".toList = some 0x3200FFFFFFFF#48 ∧
    assemble [] "STORE 99999999999 R1".toList = some 0x3100FFFFFFFF#48 ∧
    assemble [] "ADD R0, R1, R2 R3".toList = some 0x501200000000#48 ∧
    assemble [] "LOAD R12 7".toList = some 0x110000000007#48 := by decide
theorem test_assemble_malformed :
    assemble [] "ADD R0 R1".toList = some 0 ∧ assemble [] "HALT;".toList = some 0 ∧
    assemble [] "   # only a comment".toList = some 0 ∧ assemble [] "HALT#x".toList = some 0xD00000000000#48 := by
  decide
theorem test_disassemble :
    disassemble [] 0x32000000000A#48 = some "STORE 10 R2".toList ∧
    disassemble [] 0xB000FFFFFFFE#48 = some "BNEG -2".toList ∧
    disassemble ['I'] 0x230000000007#48 = some "LOAD R3 I7".toList ∧
    disassemble [] 0x230000000007#48 = none := by decide
theorem test_disassemble_invalid :
    disassemble [] 0x5F0100000000#48 = some "ADD R9 R0 R1".toList ∧
    assemble [] "ADD R7 R0 R1".toList = some 0x5F0100000000#48 ∧
    (disassemble [] 0).bind (assemble []) = some 0 ∧ disassemble [] 0xE00000000000#48 = none := by decide
theorem test_seed_port_writes_a_cell_once :
    (match (⟨.load, State.reset, false, .none⟩ : System).seedPort true 31 7 with
      | .next y => (y.core.mem.read 31, match y.seedPort true 31 8 with
        | .refused .badSeeds => true
        | _ => false)
      | _ => (0, false)) = (7, true) := by decide
theorem test_ports_are_narrow :
    (⟨.run, v3 0xE00000000000#48, true, .none⟩ : System).tracePort = some ⟨2, 0xE00000000000#48⟩ ∧
    (⟨.run, v3 0xE00000000000#48, true, .none⟩ : System).diagPort = some ⟨2, 0xE00000000000#48⟩ ∧
    (⟨.run, v3 0xC00000000000#48, true, .none⟩ : System).diagPort = none := by decide

/-! ### Witnesses: for each statement with hypotheses, values that meet all of them together, clause by clause and at the
ends of the ranges -/

/-- A running core at the first word of a six-word program. -/
def atFirst : State := { v3 0xC00000000000#48 with pc := 0 }
/-- A running core at the last word. -/
def atLast : State := { v3 0xC00000000000#48 with pc := 5 }
/-- A core that fell off the end. -/
def pastEnd : State := { v3 0xC00000000000#48 with pc := 6 }
/-- A core one HALT and one unrecognized word into its run, halted. -/
def halted2 : State :=
  { v3 0xD00000000000#48 with
    halted := true
    trace := [⟨1, 0⟩, ⟨2, 0xD00000000000#48⟩]
    diag := [⟨1, 0⟩] }
/-- The same core before the HALT. -/
def running2 : State :=
  { v3 0xD00000000000#48 with
    trace := [⟨1, 0⟩]
    diag := [⟨1, 0⟩] }

theorem witness_DecodeInvertsEncode :
    (Instr.loadLit 15 (-2147483648)).wellFormed = true ∧ (Instr.store 3 2147483647).wellFormed = true ∧
    (Instr.add 15 0 3).wellFormed = true ∧ Instr.unrecF.wellFormed = true := by decide
theorem witness_CanonicalEncoderRoundTrip :
    (Instr.bneg (-2147483648)).wellFormed = true ∧ Instr.bneg (-2147483648) ≠ .unrecE ∧
      Instr.bneg (-2147483648) ≠ .unrecF ∧
    (unusedFieldsZero 0x43F000000000#48 = true ∧ opcodeField 0x43F000000000#48 ≠ 0xE#4 ∧
      opcodeField 0x43F000000000#48 ≠ 0xF#4) ∧ unusedFieldsZero 0x43F000000001#48 = false := by decide
theorem witness_ResetMeetsInvariants : [(0 : InstrWord)] ≠ [] := by decide
theorem witness_StepRunsDecodedInstruction :
    (atFirst.halted = false ∧ 0 ≤ signed atFirst.pc ∧ signed atFirst.pc < atFirst.prog.length ∧
      atFirst.prog[atFirst.pc.toNat]? = some 0) ∧
    (atLast.halted = false ∧ 0 ≤ signed atLast.pc ∧ signed atLast.pc < atLast.prog.length ∧
      atLast.prog[atLast.pc.toNat]? = some 0) := by decide
theorem witness_TerminalStateHolds :
    halted2.halted = true ∧ signed { atFirst with pc := wrap (-1) }.pc < 0 ∧
    (pastEnd.prog.length : Int) ≤ signed pastEnd.pc ∧ (State.reset.prog.length : Int) ≤ signed State.reset.pc := by
  decide
theorem witness_EveryStepHasNextState : atFirst.status = .running ∧ atLast.status = .running := by decide
theorem witness_EachStepTracesOneFetch_running : atFirst.status = .running := by decide
theorem witness_EachStepTracesOneFetch_terminal : pastEnd.terminal ∧ step pastEnd = .next pastEnd :=
  ⟨by decide, rfl⟩
theorem witness_EachStepTracesOneFetch_run : ∃ t, run 1 atFirst = .next t ∧ t.status = .running :=
  ⟨_, rfl, by decide⟩
theorem witness_StepKeepsInv : running2.Inv ∧ ∃ t, step running2 = .next t ∧ t.halted = true :=
  ⟨by decide, _, rfl, by decide⟩
theorem witness_StepKeepsTraceOfFetches : running2.TraceOfFetches ∧ ∃ t, step running2 = .next t ∧ t.trace ≠ [] :=
  ⟨by decide, _, rfl, by decide⟩
theorem witness_StepKeepsDiagOfTrace :
    { atFirst with trace := [⟨1, 0⟩], diag := [⟨1, 0⟩] }.DiagOfTrace ∧
      ∃ t, step { atFirst with trace := [⟨1, 0⟩], diag := [⟨1, 0⟩] } = .next t ∧ t.diag.length = 2 :=
  ⟨by decide, _, rfl, by decide⟩
theorem witness_StepKeepsHaltTraced :
    (running2.HaltTraced ∧ ∃ t, step running2 = .next t ∧ t.halted = true) ∧
    halted2.HaltTraced ∧ step halted2 = .next halted2 :=
  ⟨⟨by decide, _, rfl, by decide⟩, by decide, rfl⟩
theorem witness_HaltedOnlyByHalt :
    (∃ t, step running2 = .next t) ∧ (halted2.halted = true ∧ step halted2 = .next halted2) ∧
    (Instr.nop ≠ .halt ∧ ∃ t, exec .nop halted2 = .next t) :=
  ⟨⟨_, rfl⟩, ⟨rfl, rfl⟩, by decide, _, rfl⟩
theorem witness_ProgramStoreNeverChanges :
    (∃ t, exec (.store 3 0) atFirst = .next t) ∧ ∃ t, run 1 atFirst = .next t := ⟨⟨_, rfl⟩, _, rfl⟩
theorem witness_AtMostOneLocationWritten :
    (∃ t, exec (.add 3 0 1) atFirst = .next t ∧ t.reg 3 = 7) ∧
    (∃ t, exec (.store 0 31) atFirst = .next t ∧ t.mem.read 31 = 10) ∧
    ∃ t, exec .nop atFirst = .next t ∧ t.regs = atFirst.regs :=
  ⟨⟨_, rfl, by decide⟩, ⟨_, rfl, by decide⟩, _, rfl, rfl⟩
theorem witness_RegisterAccessTable_written :
    (∃ t, exec (.move 3 0) atFirst = .next t) ∧ ∀ ra, (Instr.move 3 0).destField = some ra → ra.toNat ≠ 2 := by
  refine ⟨⟨_, rfl⟩, fun ra h => ?_⟩
  cases h
  decide
theorem witness_RegisterAccessTable_read :
    (∃ t, exec (.bezero 0) atFirst = .next t) ∧ ∀ r ∈ (Instr.bezero 0).sourceFields, r.toNat ≠ 1 :=
  ⟨⟨_, rfl⟩, by decide⟩
theorem witness_DefaultAdvance :
    (∃ t, exec (.sub 0 4 1) atLast = .next t) ∧
    (∃ t, exec (.branch 5) atFirst = .next t) ∧ (∃ t, exec (.branch 6) atFirst = .next t) ∧
    (∃ t, exec (.bezero 0) State.reset = .next t) ∧ (∃ t, exec (.bneg (-1)) atFirst = .next t) ∧
    (∃ t, exec .halt atFirst = .next t) ∧ (atLast.Inv ∧ atLast.status = .running) :=
  ⟨⟨_, rfl⟩, ⟨_, rfl⟩, ⟨_, rfl⟩, ⟨_, rfl⟩, ⟨_, rfl⟩, ⟨_, rfl⟩, by decide⟩
theorem witness_InvalidOperandSkips_fields :
    4 ≤ (4#4).toNat ∧ 4 ≤ (15#4).toNat ∧ ¬ 4 ≤ (3#4).toNat ∧ (-1 : Int) < 0 ∧ (32 : Int) ≤ 32 := by decide
theorem witness_InvalidOperandSkips_target : (atFirst.prog.length : Int) ≤ 6 ∧ ¬ (atFirst.prog.length : Int) ≤ 5 := by
  decide
theorem witness_LoadLiteralEffect :
    (3#4).toNat = (3 : Fin Config.numRegs) ∧ Config.numRegs ≤ (4#4).toNat ∧
    (-(2 ^ 31) ≤ (-2147483648 : Int) ∧ (2147483647 : Int) ≤ 2 ^ 31 - 1) := by decide
theorem witness_LoadMemoryEffect :
    ((3#4).toNat = (3 : Fin Config.numRegs) ∧ (31 : Int) = ((31 : Fin Config.memCells) : Nat)) ∧
    ((0#4).toNat = (0 : Fin Config.numRegs) ∧ (0 : Int) = ((0 : Fin Config.memCells) : Nat)) ∧
    Config.numRegs ≤ (4#4).toNat ∧ (-1 : Int) < 0 ∧ (Config.memCells : Int) ≤ 32 := by decide
theorem witness_LoadMemoryEffect_kept :
    (∃ t, exec (.store 0 30) atFirst = .next t) ∧ ∀ ra, Instr.store 0 30 ≠ .store ra ((31 : Fin Config.memCells) : Nat) :=
  ⟨⟨_, rfl⟩, fun ra h => by injection h with _ h; revert h; decide⟩
theorem witness_StoreEffect :
    ((3#4).toNat = (3 : Fin Config.numRegs) ∧ (31 : Int) = ((31 : Fin Config.memCells) : Nat)) ∧
    ((0#4).toNat = (0 : Fin Config.numRegs) ∧ (0 : Int) = ((0 : Fin Config.memCells) : Nat)) ∧
    Config.numRegs ≤ (15#4).toNat ∧ (-2147483648 : Int) < 0 ∧ (Config.memCells : Int) ≤ 2147483647 := by decide
theorem witness_MoveEffect :
    ((3#4).toNat = (3 : Fin Config.numRegs) ∧ (0#4).toNat = (0 : Fin Config.numRegs)) ∧
    Config.numRegs ≤ (4#4).toNat := by decide
theorem witness_AddEffect :
    ((0#4).toNat = (0 : Fin Config.numRegs) ∧ (0#4).toNat = (0 : Fin Config.numRegs) ∧
      (3#4).toNat = (3 : Fin Config.numRegs)) ∧ Config.numRegs ≤ (4#4).toNat := by decide
theorem witness_SubEffect :
    ((1#4).toNat = (1 : Fin Config.numRegs) ∧ (1#4).toNat = (1 : Fin Config.numRegs) ∧
      (3#4).toNat = (3 : Fin Config.numRegs)) ∧ Config.numRegs ≤ (15#4).toNat := by decide
theorem witness_BitwiseEffect :
    ((2#4).toNat = (2 : Fin Config.numRegs) ∧ (0#4).toNat = (0 : Fin Config.numRegs) ∧
      (3#4).toNat = (3 : Fin Config.numRegs)) ∧ Config.numRegs ≤ (4#4).toNat ∧ 31 < 32 := by decide
theorem witness_SubEffect_compare :
    -(2 ^ 31) ≤ signed (wrap (-2147483648)) - signed 0 ∧ signed (wrap 3) - signed (wrap 5) ≤ 2 ^ 31 - 1 := by decide
theorem witness_NopEffect : opcodeField 0xC12345678ABC#48 = 0xC#4 := by decide
/-- A running core at the last word of a three-word program, that word being `w`. -/
def atEnd (w : InstrWord) : State := { v3 0 with prog := [0, 0, w] }
theorem witness_NopEffect_step :
    (atEnd 0xC00000000001#48).status = .running ∧ (atEnd 0xC00000000001#48).fetch = some 0xC00000000001#48 ∧
    opcodeField 0xC00000000001#48 = 0xC#4 ∧
    signed (atEnd 0xC00000000001#48).pc + 1 = (atEnd 0xC00000000001#48).prog.length := by decide
theorem witness_HaltEffect : halted2.halted = true ∧ opcodeField 0xDFFFFFFFFFFF#48 = 0xD#4 := by decide
theorem witness_HaltEffect_step :
    running2.status = .running ∧ running2.fetch = some 0xD00000000000#48 ∧ opcodeField 0xD00000000000#48 = 0xD#4 := by
  decide
theorem witness_UnrecognizedEffect_step :
    (atEnd 0xE00000000001#48).status = .running ∧ (atEnd 0xE00000000001#48).fetch = some 0xE00000000001#48 ∧
    (decode 0xE00000000001#48).kind = .unrec ∧
    signed (atEnd 0xE00000000001#48).pc + 1 = (atEnd 0xE00000000001#48).prog.length := by decide
theorem witness_UnrecognizedEffect :
    (0 ≤ signed atFirst.pc ∧ signed atFirst.pc < atFirst.prog.length ∧ atFirst.prog[atFirst.pc.toNat]? = some 0) ∧
    (0 ≤ signed atLast.pc ∧ signed atLast.pc < atLast.prog.length ∧ atLast.prog[atLast.pc.toNat]? = some 0) := by
  decide
theorem witness_RegisterWriteFrame :
    (Instr.loadMem 3 31).destField = some 3 ∧ (∃ t, exec (.loadMem 3 31) atFirst = .next t) ∧
    (3#4).toNat ≠ (2 : Fin Config.numRegs) := ⟨rfl, ⟨_, rfl⟩, by decide⟩
theorem witness_StoreFrame :
    (∃ t, exec (.store 0 31) atFirst = .next t) ∧ addrIndex 31 = some 31 ∧ (30 : Nat) ≠ (31 : Fin Config.memCells) ∧
    regIndex 4 = none ∧ addrIndex 32 = none ∧ addrIndex (-1) = none := ⟨⟨_, rfl⟩, by decide⟩
theorem witness_ControlAndSystemFrame :
    (Instr.unrecE.destField = none ∧ Instr.unrecE.kind ≠ .store ∧ ∃ t, exec .unrecE atFirst = .next t) ∧
    (Instr.halt.destField = none ∧ Instr.halt.kind ≠ .store ∧ ∃ t, exec .halt atFirst = .next t) ∧
    Instr.unrecE.kind ≠ .halt ∧ Instr.halt.kind ≠ .unrec :=
  ⟨⟨rfl, by decide, _, rfl⟩, ⟨rfl, by decide, _, rfl⟩, by decide⟩
theorem witness_LoadReturnsLatestStore :
    (0#4).toNat = (0 : Fin Config.numRegs) ∧ (3#4).toNat = (3 : Fin Config.numRegs) := by decide
theorem witness_StatusOfState : atLast.Inv ∧ pastEnd.Inv ∧ halted2.Inv := by decide
theorem witness_EmptyProgramRunsZeroSteps :
    (∃ s, State.reset.seedMemory [(0, 7), (31, -1)] = .next s) ∧ State.reset.seedMemory [] = .next State.reset :=
  ⟨⟨_, rfl⟩, rfl⟩
theorem witness_RunEndsAtFirstTerminalState : ∃ t, run 1 atLast = .next t ∧ t.terminal := ⟨_, rfl, by decide⟩
theorem witness_RunEndsAtFirstTerminalState_clauses :
    (atLast.status = .running ∧ ∃ t, step atLast = .next t) ∧ pastEnd.terminal ∧ halted2.terminal :=
  ⟨⟨by decide, _, rfl⟩, by decide, by decide⟩
theorem witness_OnlyFallingOffLeavesProgram :
    atLast.Inv ∧ atLast.status = .running ∧ ∃ t, step atLast = .next t ∧ t.status = .outOfRange :=
  ⟨by decide, by decide, _, rfl, by decide⟩
theorem witness_PulsesAreWhatTheStepReports :
    (∃ t, step atFirst = .next t) ∧ atFirst.diagPulse = some ⟨0, 0⟩ ∧ pastEnd.diagPulse = none :=
  ⟨⟨_, rfl⟩, by decide⟩

/-- A system in a phase, its core freshly reset. -/
def sys (p : Phase) : System := ⟨p, State.reset, false, .none⟩

theorem witness_HostMovesByPhase_refused : HostMove.start ≠ .reset ∧ (sys .run).phase ≠ .load := by decide
theorem witness_HostMovesByPhase_loader :
    HostMove.loadWords [0] ≠ .reset ∧ HostMove.loadWords [0] ≠ .start ∧
    (∃ z, (sys .load).hostMove (.loadWords [0]) = .next z) := ⟨by decide, by decide, _, rfl⟩
theorem witness_HostMovesByPhase_once :
    (∃ z, (sys .load).hostMove (.loadSource [] ["HALT".toList]) = .next z) ∧
    (∃ z, (sys .load).hostMove (.seed [(31, -1)]) = .next z) ∧
    ({ sys .load with loaded := true }.phase = .load ∧ { sys .load with loaded := true }.loaded = true) ∧
    { sys .load with seeding := .port [31] }.phase = .load ∧ { sys .load with seeding := .port [31] }.seeding ≠ .none :=
  ⟨⟨_, rfl⟩, ⟨_, rfl⟩, by decide⟩
/-- A system whose loader has written cell 31 through the seed port. -/
def oneSeed : System := { sys .load with seeding := .port [31] }
theorem witness_HostMovesByPhase_loads :
    ((sys .load).phase = .load ∧ (sys .load).loaded = false) ∧
    (List.replicate 32 (0 : InstrWord)).length ≤ 32 ∧ 32 < (List.replicate 33 (0 : InstrWord)).length ∧
    ["halt".toList].mapM (assemble []) = some [0xD00000000000#48] ∧
    (List.replicate 33 ['#']).mapM (assemble []) = some (List.replicate 33 0) ∧
    ["LOAD R0 2147483648".toList].mapM (assemble []) = none :=
  ⟨by decide, by decide, by decide, by decide, by decide, by decide⟩
theorem witness_HostMovesByPhase_seeds :
    ((sys .load).phase = .load ∧ (sys .load).seeding = .none) ∧
    (∃ s, (sys .load).core.seedMemory [(0, 7), (31, -1)] = .next s) ∧
    (sys .load).core.seedMemory [(32, 7)] = .refused .badSeeds :=
  ⟨by decide, ⟨_, rfl⟩, rfl⟩
theorem witness_HostMovesByPhase_port :
    (oneSeed.phase = .load ∧ oneSeed.seeding = .port [31]) ∧ (0#5) ∉ [31#5] ∧ (31#5) ∈ [31#5] ∧
    (31#5) ∉ ([] : List (BitVec 5)) ∧
    ({ sys .load with seeding := .set }.phase = .load ∧ { sys .load with seeding := .set }.seeding = .set) := by decide
theorem witness_HostMovesByPhase_report : (sys .report).phase = .report ∧ (sys .run).phase ≠ .report := by decide
theorem witness_ProgramLoad :
    (List.replicate 32 (0 : InstrWord)).length ≤ 32 ∧ 32 < (List.replicate 33 (0 : InstrWord)).length := by decide
theorem witness_SeedingWritesNamedCells_valid :
    (∀ p ∈ [((0 : Int), (-2147483648 : Int)), (31, 2147483647)],
      0 ≤ p.1 ∧ p.1 < 32 ∧ -(2 ^ 31) ≤ p.2 ∧ p.2 ≤ 2 ^ 31 - 1) ∧
    [((0 : Int), (-2147483648 : Int)), (31, 2147483647)].Pairwise (fun p q => p.1 ≠ q.1) ∧
    (∀ p ∈ [((0 : Int), (-2147483648 : Int)), (31, 2147483647)], p.1 ≠ (30 : Nat)) := by decide
theorem witness_SeedingWritesNamedCells_refused :
    ¬ (∀ p ∈ [((32 : Int), (0 : Int))], 0 ≤ p.1 ∧ p.1 < 32) ∧
    ¬ ([((3 : Int), (1 : Int)), (3, 2)].Pairwise (fun p q => p.1 ≠ q.1)) := by decide
theorem witness_ReportInIndexOrder : 0 < 32 ∧ 31 < 32 := by decide
theorem witness_SystemInvariantKept_host :
    (sys .load).Inv ∧ ∃ z, (sys .load).hostMove (.loadWords [0]) = .next z ∧ z.core.progLen = 1 :=
  ⟨by decide, _, rfl, by decide⟩
theorem witness_SystemInvariantKept_port :
    (sys .load).Inv ∧ ∃ z, (sys .load).seedPort true 31 7 = .next z ∧ z.core.mem.read 31 = 7 :=
  ⟨by decide, _, rfl, by decide⟩
theorem witness_SystemInvariantKept_tick :
    { sys .run with core := running2 }.Inv ∧
      ∃ z, System.tick { sys .run with core := running2 } = .next z ∧ z.core.halted = true :=
  ⟨by decide, _, rfl, by decide⟩
theorem witness_SystemInvariantKept_turn :
    ((sys .run).phase = .run ∧ { sys .run with core := running2 }.core.status = .running ∧
      ∃ t, step { sys .run with core := running2 }.core = .next t) ∧
    (sys .run).core.terminal ∧ { sys .run with core := halted2 }.core.terminal ∧ (sys .report).phase ≠ .run :=
  ⟨⟨by decide, by decide, _, rfl⟩, by decide, by decide, by decide⟩
theorem witness_AssembledWordActsAsItsLine :
    State.reset.progLen ≤ Config.memCells ∧ assemble ['I', 'B'] "LOAD R3 I10".toList = some 0x23000000000A#48 ∧
    assemble [] "STORE 32 R4".toList = some 0x3F0000000020#48 := by decide
theorem witness_OnlyOversizedLiteralsRefused :
    tokenize "LOAD R0 2147483648".toList = ['L', 'O', 'A', 'D'] :: ['R', '0'] :: "2147483648".toList :: [] ∧
    isLiteral "2147483648".toList = true ∧ 2 ^ 31 - 1 < litValue "2147483648".toList := ⟨by decide, by decide, by decide⟩
theorem witness_MalformedLinesAssembleToZero :
    tokenize " # nothing".toList = [] ∧
    (tokenize "FOO R1".toList = "FOO".toList :: ["R1".toList] ∧ ∀ m : Mnemonic, m.spelling ≠ "FOO".toList) ∧
    (tokenize "add r1 r2".toList = Mnemonic.add.spelling :: ["R1".toList, "R2".toList] ∧
      ["R1".toList, "R2".toList].length < Mnemonic.add.minOperands) :=
  ⟨by decide, ⟨by decide, fun m => by cases m <;> decide⟩, by decide, by decide⟩
theorem witness_ExtraOperandsIgnored :
    Mnemonic.halt.minOperands ≤ ([] : List Token).length ∧
    Mnemonic.or.minOperands ≤ ["R0".toList, "R1".toList, "R2".toList].length := by decide
theorem witness_RegisterTokenResolves :
    ∀ (k : Fin Config.numRegs) (rest : List Char), ['R', '4'] ≠ 'R' :: Char.ofNat (0x30 + k) :: rest := by
  intro k rest h
  injection h with _ h
  injection h with h _
  revert k
  decide
theorem witness_TokenizerYieldsCleanTokens :
    "R1,".toList ∈ tokenize " add r1, 7#x".toList ∧ (∀ c ∈ "  ".toList, isSpaceChar c = true) ∧
    (isSpaceChar '\t' = true ∧ '#' ∉ " add".toList) ∧
    (∀ t ∈ ["ADD".toList, "R1,".toList], t ≠ [] ∧
      ∀ c ∈ t, isSpaceChar c = false ∧ c ≠ '#' ∧ ¬ (0x61 ≤ c.toNat ∧ c.toNat ≤ 0x7A)) := by
  refine ⟨by decide, by simp [isSpaceChar], by decide, ?_⟩
  simp [isSpaceChar]
theorem witness_DisassemblyAssemblesBack :
    (∀ c ∈ ['A', 'Z'], 0x41 ≤ c.toNat ∧ c.toNat ≤ 0x5A) ∧
    disassemble ['A', 'Z'] 0x23000000001F#48 = some "LOAD R3 A31".toList ∧
    disassemble [] 0x434000000000#48 = none := ⟨by simp, by decide, by decide⟩

end Sys2Proof.Tests
end

section
/-! PROOFS of the family spec/00_scope.md: what `wrap` of R7 is, as an equation between words and a congruence between
integers. -/

namespace Sys2Proof

/-- `wrap` identifies exactly the integers that are congruent modulo `2^32`. -/
theorem wrap_eq_wrap_iff (a b : Int) : wrap a = wrap b ↔ (a - b) % 2 ^ 32 = 0 := by
  rw [← BitVec.toInt_inj, BitVec.toInt_ofInt, BitVec.toInt_ofInt,
    Int.bmod_eq_bmod_iff_bmod_sub_eq_zero, ← Int.dvd_iff_bmod_eq_zero]
  exact Int.dvd_iff_emod_eq_zero

/-- Settles O41: a word is `wrap` of its own signed reading, so `wrap_eq_wrap_iff` compares that reading with `z`. -/
theorem wrapIsUniqueCongruentValue : Obligations.WrapIsUniqueCongruentValue := by
  intro z v
  rw [← wrap_eq_wrap_iff, wrap_signed]

end Sys2Proof
end

section
/-! PROOFS of the family spec/10_state.md: reset and the status, what an instruction leaves unchanged, and what an
instruction cannot read. -/

namespace Sys2Proof.Machine

/-! The status (R20) and reset (R22). -/

/-- OUT_OF_RANGE is the status that is left when the core is neither HALTED nor RUNNING. -/
theorem State.status_outOfRange {s : State} :
    s.status = .outOfRange ↔ s.halted = false ∧ ¬ (0 ≤ signed s.pc ∧ signed s.pc < s.prog.length) := by
  have left : s.status = .outOfRange ↔ s.status ≠ .halted ∧ s.status ≠ .running := by
    cases s.status <;> simp
  rw [left, ne_eq, ne_eq, State.status_halted, State.status_running]
  cases s.halted <;> simp

/-- Settles O44: one lemma for each value of the status; the invariant bounds `pc` by 0 and PROG_LEN. -/
theorem statusOfState : Obligations.StatusOfState := by
  refine ⟨fun s => ⟨State.status_halted, State.status_outOfRange, State.status_running⟩, fun s hinv => ?_⟩
  obtain ⟨-, -, hlow, hhigh, -⟩ := hinv
  rw [State.progLen_eq] at hhigh
  rw [State.status_outOfRange]
  refine and_congr_right fun _ => ?_
  omega

/-- Settles O8, field by field. -/
theorem resetState : Obligations.ResetState :=
  ⟨fun i => by simp [State.reg], fun _ => rfl, rfl, rfl, rfl, rfl, rfl⟩

theorem State.reset_inv : State.reset.Inv :=
  ⟨State.reset_mem_wf, Nat.zero_le _, Int.le_refl _, Int.le_refl _, nofun⟩

/-- Settles O9: trace and events are empty, the core is not halted, and `pc = 0` is in range iff there is a word. -/
theorem resetMeetsInvariants : Obligations.ResetMeetsInvariants := by
  refine ⟨State.reset_inv, nofun, rfl, nofun, rfl, fun prog hprog => ?_⟩
  exact State.status_running.2 ⟨rfl, Int.le_refl _, Int.natCast_pos.2 (List.length_pos_iff.2 hprog)⟩

/-! What every instruction, step and run leaves unchanged. -/

/-- No instruction writes the program store (R41). -/
theorem exec_prog {i : Instr} {s t : State} (h : exec i s = .next t) : t.prog = s.prog := by
  cases exec_cases h <;> simp

theorem step_prog {s t : State} (h : step s = .next t) : t.prog = s.prog := by
  rcases step_next h with ⟨-, rfl⟩ | ⟨w, -, -, -, hexec⟩
  · rfl
  · simpa using exec_prog hexec

theorem run_prog {n : Nat} {s t : State} (h : run n s = .next t) : t.prog = s.prog := by
  induction n generalizing s with
  | zero => cases h; rfl
  | succ n ih =>
    unfold run at h
    split at h
    · split at h
      · next hstep => exact (ih h).trans (step_prog hstep)
      · next hnot => exact absurd h (hnot t)
    · cases h; rfl
    · cases h; rfl

/-- Settles O19, by induction on the number of steps. -/
theorem programStoreNeverChanges : Obligations.ProgramStoreNeverChanges :=
  ⟨fun _ _ _ => exec_prog, fun _ _ _ => run_prog⟩

/-- The one register an instruction writes is the one its destination field names (R11). -/
theorem exec_reg_of_not_dest {i : Instr} {s t : State} {j : Fin Config.numRegs} (h : exec i s = .next t)
    (hj : ∀ ra, i.destField = some ra → ra.toNat ≠ j) : t.reg j = s.reg j := by
  cases exec_cases h with
  | wroteReg ra d v hi hd =>
    have hne : d ≠ j := fun e => hj ra hi (e ▸ regIndex_eq_some.1 hd)
    exact State.reg_setReg_ne s hne v
  | advanced | wroteCell | jumped | halted => rfl
  | reported => exact State.reg_congr (State.emitMalformed_regs s) j

/-- An instruction with a destination register writes no cell, not the flag and no output. -/
theorem exec_frame_of_destField {i : Instr} {s t : State} {ra : RegField} (hdest : i.destField = some ra)
    (h : exec i s = .next t) :
    t.mem = s.mem ∧ t.halted = s.halted ∧ t.trace = s.trace ∧ t.diag = s.diag := by
  obtain ⟨hhalt, hunrec, -⟩ := Instr.kind_of_destField hdest
  cases exec_cases h with
  | advanced | wroteReg | jumped => exact ⟨rfl, rfl, rfl, rfl⟩
  | wroteCell _ _ _ _ hi => subst hi; cases hdest
  | halted hi => exact absurd hi hhalt
  | reported hi => exact absurd hi hunrec

/-- Settles O37, from the frame of the register file, of memory and the outputs, and of the program store. -/
theorem registerWriteFrame : Obligations.RegisterWriteFrame := by
  intro i s t ra hdest h
  obtain ⟨hmem, hhalted, htrace, hdiag⟩ := exec_frame_of_destField hdest h
  refine ⟨fun j hj => exec_reg_of_not_dest h ?_, fun b => by rw [hmem], hhalted, exec_prog h, htrace, hdiag⟩
  intro r hr
  rw [hdest] at hr
  cases hr
  exact hj

/-! What an instruction cannot read. Two runs of one instruction, from states that differ where it does not look, end in
states that differ nowhere else. -/

/-- A relation of states that agree on memory, `pc` and the program, and that every write of an instruction but HALT's
keeps. -/
structure ExecRelation (R : State → State → Prop) : Prop where
  mem {s u : State} : R s u → u.mem = s.mem
  pc {s u : State} : R s u → u.pc = s.pc
  prog {s u : State} : R s u → u.prog = s.prog
  setReg {s u : State} (d : Fin Config.numRegs) (v : Word) : R s u → R (s.setReg d v) (u.setReg d v)
  setCell {s u : State} (a : Fin Config.memCells) (v : Word) : R s u → R (s.setCell a v) (u.setCell a v)
  setPc {s u : State} (p : Word) : R s u → R (s.setPc p) (u.setPc p)
  emitMalformed {s u : State} : R s u → R s.emitMalformed u.emitMalformed

/-- The register the field names, if any, holds the same value in both states. -/
def SameAt (s u : State) (r : RegField) : Prop := ∀ k, regIndex r = some k → u.reg k = s.reg k

namespace ExecRelation

variable {R : State → State → Prop} (hR : ExecRelation R) {s u : State} (h : R s u)

include hR h

theorem advance : R s.advance u.advance := by
  unfold State.advance
  rw [hR.pc h]
  exact hR.setPc _ h

theorem targetValid (imm : Int) : u.targetValid imm = s.targetValid imm := by
  unfold State.targetValid State.progLen
  rw [hR.prog h]

theorem writeDest (ra : RegField) (v : Word) : R (s.writeDest ra v) (u.writeDest ra v) := by
  unfold State.writeDest
  split
  · exact hR.advance (hR.setReg _ _ h)
  · exact hR.advance h

theorem loadCell (ra : RegField) (imm : Int) : R (s.loadCell ra imm) (u.loadCell ra imm) := by
  unfold State.loadCell State.cell
  rw [hR.mem h]
  split
  · exact hR.advance (hR.setReg _ _ h)
  · exact hR.advance h

theorem storeCell {ra : RegField} (hra : SameAt s u ra) (imm : Int) :
    R (s.storeCell ra imm) (u.storeCell ra imm) := by
  unfold State.storeCell
  split
  · next hr _ => rw [hra _ hr]; exact hR.advance (hR.setCell _ _ h)
  · exact hR.advance h

theorem unary (ra : RegField) {rb : RegField} (hrb : SameAt s u rb) : R (s.unary ra rb) (u.unary ra rb) := by
  unfold State.unary
  split
  · next hb => rw [hrb _ hb]; exact hR.advance (hR.setReg _ _ h)
  · exact hR.advance h

theorem binary (f : Word → Word → Word) (ra : RegField) {rb rc : RegField} (hrb : SameAt s u rb)
    (hrc : SameAt s u rc) : R (s.binary f ra rb rc) (u.binary f ra rb rc) := by
  unfold State.binary
  split
  · next hb hc => rw [hrb _ hb, hrc _ hc]; exact hR.advance (hR.setReg _ _ h)
  · exact hR.advance h

theorem branchIf {c c' : Bool} (hc : c' = c) (imm : Int) : R (s.branchIf c imm) (u.branchIf c' imm) := by
  unfold State.branchIf
  rw [hc, hR.targetValid h]
  split
  · exact hR.setPc _ h
  · exact hR.advance h

theorem reportAndAdvance : R s.reportAndAdvance u.reportAndAdvance := hR.advance (hR.emitMalformed h)

/-- An instruction keeps the relation where its source registers hold the same values. -/
theorem exec_next {i : Instr} {t : State} (hsrc : ∀ r ∈ i.sourceFields, SameAt s u r)
    (hhalt : i = .halt → R s.setHalted u.setHalted) (ht : exec i s = .next t) :
    ∃ t', exec i u = .next t' ∧ R t t' := by
  cases i <;> cases ht <;> refine ⟨_, rfl, ?_⟩
  case loadLit ra imm => exact hR.writeDest h ra (wrap imm)
  case loadMem ra imm => exact hR.loadCell h ra imm
  case store ra imm => exact hR.storeCell h (hsrc ra (by simp [Instr.sourceFields])) imm
  case move ra rb => exact hR.unary h ra (hsrc rb (by simp [Instr.sourceFields]))
  case add | sub | and | or =>
    exact hR.binary h _ _ (hsrc _ (by simp [Instr.sourceFields])) (hsrc _ (by simp [Instr.sourceFields]))
  case branch imm => exact hR.branchIf h rfl imm
  case bezero imm =>
    have h0 : u.reg 0 = s.reg 0 := hsrc 0#4 (by simp [Instr.sourceFields]) 0 rfl
    exact hR.branchIf h (by rw [State.zeroTest, State.zeroTest, h0]) imm
  case bneg imm =>
    have h0 : u.reg 0 = s.reg 0 := hsrc 0#4 (by simp [Instr.sourceFields]) 0 rfl
    exact hR.branchIf h (by rw [State.negTest, State.negTest, h0]) imm
  case nop => exact hR.advance h
  case halt => exact hhalt rfl
  case unrec0 | unrecE | unrecF => exact hR.reportAndAdvance h

end ExecRelation

/-! One register that no source field names (R11). -/

/-- The second state is the first but for the value of register `j`. -/
def DiffersAtReg (j : Fin Config.numRegs) (s u : State) : Prop := ∃ v, u = s.setReg j v

/-- A write after a change of register `j`, to that register or another, leaves a change of `j` at most. -/
theorem State.setReg_setReg (s : State) (j d : Fin Config.numRegs) (v x : Word) :
    ∃ y, (s.setReg j v).setReg d x = (s.setReg d x).setReg j y := by
  by_cases hjd : j = d
  · subst hjd
    exact ⟨x, by simp [State.setReg]⟩
  · refine ⟨v, ?_⟩
    have hne : (j : Nat) ≠ d := fun e => hjd (Fin.ext e)
    simp [State.setReg, Vector.set_comm _ _ hne]

theorem State.emitMalformed_setReg (s : State) (j : Fin Config.numRegs) (v : Word) :
    (s.setReg j v).emitMalformed = s.emitMalformed.setReg j v := by
  unfold State.emitMalformed
  rw [State.fetch_congr (State.setReg_pc s j v) (State.setReg_prog s j v)]
  split <;> rfl

theorem execRelation_differsAtReg (j : Fin Config.numRegs) : ExecRelation (DiffersAtReg j) where
  mem := by rintro s u ⟨v, rfl⟩; rfl
  pc := by rintro s u ⟨v, rfl⟩; rfl
  prog := by rintro s u ⟨v, rfl⟩; rfl
  setReg := by rintro s u d x ⟨v, rfl⟩; exact s.setReg_setReg j d v x
  setCell := by rintro s u a x ⟨v, rfl⟩; exact ⟨v, rfl⟩
  setPc := by rintro s u p ⟨v, rfl⟩; exact ⟨v, rfl⟩
  emitMalformed := by rintro s u ⟨v, rfl⟩; exact ⟨v, s.emitMalformed_setReg j v⟩

theorem sameAt_setReg (s : State) {j : Fin Config.numRegs} (v : Word) {r : RegField} (hr : r.toNat ≠ j) :
    SameAt s (s.setReg j v) r := by
  intro k hk
  have hne : j ≠ k := fun e => hr (e ▸ regIndex_eq_some.1 hk)
  exact s.reg_setReg_ne hne v

/-- Settles O21: the write by `exec_reg_of_not_dest`; the reads since a changed register that is no source stays the only
change. -/
theorem registerAccessTable : Obligations.RegisterAccessTable := by
  refine ⟨fun i s t j h hj => exec_reg_of_not_dest h hj, fun i s t j v h hj => ?_⟩
  obtain ⟨u, hu, y, rfl⟩ := (execRelation_differsAtReg j).exec_next (u := s.setReg j v) ⟨v, rfl⟩
    (fun r hr => sameAt_setReg s v (hj r hr)) (fun _ => ⟨v, rfl⟩) h
  exact ⟨_, hu, fun k hk => t.reg_setReg_ne hk.symm y, rfl, rfl, rfl, rfl, rfl⟩

/-! The halted flag (R15). -/

/-- The second state is the first with its flag set to `b`. -/
def HaltedSetTo (b : Bool) (s u : State) : Prop := u = { s with halted := b }

theorem State.emitMalformed_with_halted (s : State) (b : Bool) :
    State.emitMalformed { s with halted := b } = { s.emitMalformed with halted := b } := by
  unfold State.emitMalformed
  rw [State.fetch_congr (s := { s with halted := b }) (t := s) rfl rfl]
  split <;> rfl

theorem execRelation_haltedSetTo (b : Bool) : ExecRelation (HaltedSetTo b) where
  mem := by rintro s u rfl; rfl
  pc := by rintro s u rfl; rfl
  prog := by rintro s u rfl; rfl
  setReg := by rintro s u d v rfl; rfl
  setCell := by rintro s u a v rfl; rfl
  setPc := by rintro s u p rfl; rfl
  emitMalformed := by rintro s u rfl; exact s.emitMalformed_with_halted b

/-- No instruction reads the flag, and HALT alone writes it. -/
theorem exec_haltedSetTo {i : Instr} {s t : State} (b : Bool) (hi : i ≠ .halt) (h : exec i s = .next t) :
    exec i { s with halted := b } = .next { t with halted := b } := by
  obtain ⟨u, hu, rfl⟩ := (execRelation_haltedSetTo b).exec_next (u := { s with halted := b }) rfl
    (fun _ _ _ _ => rfl) (fun e => absurd e hi) h
  exact hu

/-- HALT is the opcode 0xD, whatever the other fields (R57, R59). -/
theorem decode_eq_halt_iff (w : InstrWord) : decode w = .halt ↔ opcodeField w = 0xD#4 := by
  have row : decode w = .halt ↔ (decode w).op = .halt := by cases decode w <;> simp [Instr.op]
  rw [row, op_decode]
  constructor
  · intro e; rw [← Op.code_ofCode (opcodeField w), e]; rfl
  · intro e; rw [e]; rfl

/-- HALT sets the flag, and every other instruction leaves it. -/
theorem exec_halted_iff {i : Instr} {s t : State} (h : exec i s = .next t) :
    t.halted = true ↔ s.halted = true ∨ i = .halt := by
  cases exec_cases h with
  | advanced hh => simp [hh]
  | wroteReg ra d v hi =>
    obtain ⟨hh, -⟩ := Instr.kind_of_destField hi
    simp [hh]
  | wroteCell _ _ _ _ hi => simp [hi]
  | jumped imm hi =>
    have hh : i ≠ .halt := by rcases hi with rfl | rfl | rfl <;> nofun
    simp [hh]
  | halted hi => simp [hi]
  | reported hi =>
    have hh : i ≠ .halt := by rintro rfl; cases hi
    simp [hh]

/-- A step sets the flag iff it fetches a HALT word, and never clears it. -/
theorem step_halted_iff {s t : State} (h : step s = .next t) :
    t.halted = true ↔
      s.halted = true ∨ (s.status = .running ∧ ∃ w, s.fetch = some w ∧ opcodeField w = 0xD#4) := by
  rcases step_next h with ⟨hterm, rfl⟩ | ⟨w, hrun, hfetch, -, hexec⟩
  · simp [hterm]
  · rw [exec_halted_iff hexec, decode_eq_halt_iff]
    simp [hrun, hfetch]

/-- A halted core is not RUNNING, so a step leaves it as it is (R100). -/
theorem step_of_halted {s t : State} (hs : s.halted = true) (h : step s = .next t) : t = s := by
  rcases step_next h with ⟨-, rfl⟩ | ⟨w, hrun, -⟩
  · rfl
  · rw [State.status_halted.2 hs] at hrun
    cases hrun

/-- Settles O18, from what a step and an instruction do to the flag and with it. -/
theorem haltedOnlyByHalt : Obligations.HaltedOnlyByHalt :=
  ⟨State.reset_halted, fun _ _ => step_halted_iff, fun _ _ => step_of_halted,
    fun _ _ _ b hi => exec_haltedSetTo b hi, fun _ _ => rfl, fun _ => State.status_halted⟩

end Sys2Proof.Machine
end

section
/-! PROOFS of the family spec/20_memory.md: the frame of STORE, and a LOAD after a STORE. -/

namespace Sys2Proof.Machine

/-! What a register and a cell hold after the advance, and a cell after a write (R33). -/

@[simp] theorem State.reg_advance (s : State) (i : Fin Config.numRegs) : s.advance.reg i = s.reg i := rfl

@[simp] theorem State.cell_advance (s : State) (a : Fin Config.memCells) : s.advance.cell a = s.cell a := rfl

theorem State.cell_setCell (s : State) (a b : Fin Config.memCells) (v : Word) :
    (s.setCell a v).cell b = if b = a then v else s.cell b := by
  split
  · next hba => rw [hba]; exact Memory.read_write_self s.mem a v
  · next hba => exact Memory.read_write_ne (fun e => hba (Fin.ext e.symm)) s.mem v

/-! STORE and the memory form of LOAD with both operands valid. -/

theorem exec_store_of_valid (s : State) {ra : RegField} {imm : Int} {r : Fin Config.numRegs} {a : Fin Config.memCells}
    (hr : regIndex ra = some r) (ha : addrIndex imm = some a) :
    exec (.store ra imm) s = .next (s.setCell a (s.reg r)).advance := by
  simp [exec, execStore, State.storeCell, hr, ha]

theorem exec_loadMem_of_valid (s : State) {ra : RegField} {imm : Int} {d : Fin Config.numRegs}
    {a : Fin Config.memCells} (hd : regIndex ra = some d) (ha : addrIndex imm = some a) :
    exec (.loadMem ra imm) s = .next (s.setReg d (s.cell a)).advance := by
  simp [exec, execLoadMem, State.loadCell, hd, ha]

/-- Settles O38: with valid operands STORE writes the addressed cell and advances (R112), else it only advances (R97). -/
theorem storeFrame : Obligations.StoreFrame := by
  intro ra imm s t h
  obtain rfl : s.storeCell ra imm = t := by simpa [exec, execStore] using h
  rcases State.storeCell_cases s ra imm with ⟨r, a, hr, ha, e⟩ | ⟨-, e⟩ <;> rw [e]
  · refine ⟨rfl, rfl, rfl, rfl, rfl, fun c hc b hbc => ?_, fun hnone => ?_⟩
    · obtain rfl : a = c := Option.some.inj (ha.symm.trans hc)
      exact Memory.read_write_ne hbc.symm s.mem _
    · simp [hr, ha] at hnone
  · exact ⟨rfl, rfl, rfl, rfl, rfl, fun _ _ _ _ => rfl, fun _ _ => rfl⟩

/-- Settles O40: the LOAD copies to its register what `State.cell_setCell` finds in the cell after the STORE. -/
theorem loadReturnsLatestStore : Obligations.LoadReturnsLatestStore := by
  intro rs rd a b r d s hrs hrd
  refine ⟨_, _, exec_store_of_valid s (regIndex_eq_some.2 hrs) (addrIndex_eq_some.2 rfl),
    exec_loadMem_of_valid _ (regIndex_eq_some.2 hrd) (addrIndex_eq_some.2 rfl), ?_⟩
  rw [State.reg_advance, State.reg_setReg_self, State.cell_advance, State.cell_setCell]
  rfl

end Sys2Proof.Machine
end

section
/-! PROOFS of the family spec/30_encoding.md, the word: the decoder as a row of the opcode map and five fields, the two
encoders, and the map itself (R50 to R60). -/

namespace Sys2Proof

/-- The instruction of a row whose five fields hold these values: it keeps the fields its format uses (R53). -/
def Op.instr (o : Op) (ra rb rc : RegField) (imm : Int) : Instr :=
  match o with
  | .unrec0 => .unrec0
  | .loadLit => .loadLit ra imm
  | .loadMem => .loadMem ra imm
  | .store => .store ra imm
  | .move => .move ra rb
  | .add => .add ra rb rc
  | .sub => .sub ra rb rc
  | .and => .and ra rb rc
  | .or => .or ra rb rc
  | .branch => .branch imm
  | .bezero => .bezero imm
  | .bneg => .bneg imm
  | .nop => .nop
  | .halt => .halt
  | .unrecE => .unrecE
  | .unrecF => .unrecF

/-! The decoder (R59). -/

theorem decode_eq_instr (w : InstrWord) :
    decode w = (Op.ofCode (opcodeField w)).instr (raField w) (rbField w) (rcField w) (immField w) := rfl

theorem decode_packWord (o : Op) (ra rb rc : RegField) (imm : Word) :
    decode (packWord o.code ra rb rc imm) = o.instr ra rb rc (signed imm) := by
  rw [decode_eq_instr, opcodeField_packWord, raField_packWord, rbField_packWord, rcField_packWord, immField,
    immBits_packWord, Op.ofCode_code]

/-- Settles O1: a word is the pack of its fields, and `toNat_packWord` gives the value of a pack. -/
theorem wordIsItsFiveFields : Obligations.WordIsItsFiveFields :=
  ⟨fun w => by rw [← toNat_packWord, packWord_fields], toNat_packWord, decode_packWord .add 2 0 1 0⟩

/-- Settles O2, one row after the other. -/
theorem decodeReadsEveryWord : Obligations.DecodeReadsEveryWord := by
  intro ra rb rc imm
  have row (o : Op) := decode_packWord o ra rb rc imm
  exact ⟨row .loadLit, row .loadMem, row .store, row .move, row .add, row .sub, row .and, row .or, row .branch,
    row .bezero, row .bneg, row .nop, row .halt, row .unrec0, row .unrecE, row .unrecF⟩

/-- A row's instruction is well formed if the field `imm` fits (R54). -/
theorem Op.wellFormed_instr (o : Op) (ra rb rc : RegField) {imm : Int} (h : immFits imm = true) :
    (o.instr ra rb rc imm).wellFormed = true := by
  cases o
  case loadLit | loadMem | store | branch | bezero | bneg => exact h
  case unrec0 | move | add | sub | and | or | nop | halt | unrecE | unrecF => rfl

/-- Settles O6: the decoder reads `imm` as the signed value of a word. -/
theorem decodeYieldsWellFormed : Obligations.DecodeYieldsWellFormed := by
  intro w
  rw [decode_eq_instr]
  exact Op.wellFormed_instr _ _ _ _ (immFits_signed (immBits w))

/-! The opcode map (R57). -/

/-- A row's match word is the masked word of exactly the words with the row's opcode. -/
theorem and_opcodeMask_eq_matchWord_iff (w : InstrWord) (o : Op) :
    w &&& opcodeMask = o.matchWord ↔ opcodeField w = o.code := by
  rw [and_opcodeMask, Op.matchWord]
  refine ⟨fun e => ?_, fun e => by rw [e]⟩
  simpa using congrArg opcodeField e

theorem opcodeField_eq_code_iff (w : InstrWord) (o : Op) : opcodeField w = o.code ↔ (decode w).op = o := by
  rw [op_decode]
  exact ⟨fun e => by rw [e, Op.ofCode_code], fun e => by rw [← e, Op.code_ofCode]⟩

/-- Settles O3: the mask keeps the opcode, and the opcode decides the row. -/
theorem opcodeMapPartitionsWords : Obligations.OpcodeMapPartitionsWords :=
  ⟨by decide, fun w o => (and_opcodeMask_eq_matchWord_iff w o).trans (opcodeField_eq_code_iff w o)⟩

/-! The encoder of the rows. -/

@[simp] theorem opcodeField_encode (i : Instr) : opcodeField (encode i) = i.op.code := by
  cases i <;> exact opcodeField_packWord _ _ _ _ _

/-- Decode of encode, the law that O4 and the canonical encoder share. -/
theorem decode_encode {i : Instr} (h : i.wellFormed = true) : decode (encode i) = i := by
  cases i with
  | loadLit ra imm | loadMem ra imm | store ra imm | branch imm | bezero imm | bneg imm =>
    rw [encode, decode_packWord, signed_wrap_of_fits h]; rfl
  | move | add | sub | and | or | nop | halt | unrec0 | unrecE | unrecF => exact decode_packWord _ _ _ _ _

/-- Settles O4. -/
theorem decodeInvertsEncode : Obligations.DecodeInvertsEncode := fun _ => decode_encode

/-- The encoder packs the fields that the row's format uses, and zero elsewhere (R53, R56). -/
theorem encode_instr (o : Op) (ra rb rc : RegField) (imm : Int) :
    encode (o.instr ra rb rc imm) =
      packWord o.code (if o.kind.format.usesRa then ra else 0) (if o.kind.format.usesRb then rb else 0)
        (if o.kind.format.usesRc then rc else 0) (if o.kind.format.usesImm then wrap imm else 0) := by
  cases o <;> rfl

theorem unusedFieldsZero_encode (i : Instr) : unusedFieldsZero (encode i) = true := by
  unfold unusedFieldsZero
  rw [opcodeField_encode, Op.ofCode_code]
  cases i <;> simp [encode, Instr.op, Op.kind, Kind.format, Format.usesRa, Format.usesRb, Format.usesRc, Format.usesImm]

theorem ite_eq_of_unused_zero {n : Nat} {used : Bool} {field : BitVec n} (h : (used || field == 0) = true) :
    (if used then field else 0) = field := by
  cases used with
  | true => rfl
  | false => exact (beq_iff_eq.1 h).symm

/-- Encode of decode restores a word whose unused fields are zero, whatever its opcode. -/
theorem encode_decode {w : InstrWord} (h : unusedFieldsZero w = true) : encode (decode w) = w := by
  simp only [unusedFieldsZero, Bool.and_eq_true] at h
  obtain ⟨⟨⟨hra, hrb⟩, hrc⟩, himm⟩ := h
  rw [decode_eq_instr, encode_instr, Op.code_ofCode, immField, wrap_signed, ite_eq_of_unused_zero hra,
    ite_eq_of_unused_zero hrb, ite_eq_of_unused_zero hrc, ite_eq_of_unused_zero himm, packWord_fields]

/-! The canonical encoder (R60). -/

theorem Instr.kind_eq_unrec_iff {i : Instr} : i.kind = .unrec ↔ i = .unrec0 ∨ i = .unrecE ∨ i = .unrecF := by
  cases i <;> simp [Instr.kind, Instr.op, Op.kind]

theorem Instr.canonical_eq_self {i : Instr} (hE : i ≠ .unrecE) (hF : i ≠ .unrecF) : i.canonical = i := by
  unfold Instr.canonical
  split
  · next hk =>
    rcases Instr.kind_eq_unrec_iff.1 hk with h | h | h
    · exact h.symm
    · exact absurd h hE
    · exact absurd h hF
  · rfl

theorem opcodeField_encodeCanonical (i : Instr) :
    opcodeField (encodeCanonical i) = if i.kind = .unrec then 0x0#4 else i.op.code := by
  rw [encodeCanonical, opcodeField_encode, Instr.canonical]
  split <;> rfl

theorem decode_encodeCanonical {i : Instr} (h : i.wellFormed = true) (hE : i ≠ .unrecE) (hF : i ≠ .unrecF) :
    decode (encodeCanonical i) = i := by
  rw [encodeCanonical, Instr.canonical_eq_self hE hF, decode_encode h]

/-- No canonical word has one of the two opcodes that `Encode` never writes. -/
theorem opcodeField_encodeCanonical_ne (i : Instr) :
    opcodeField (encodeCanonical i) ≠ 0xE#4 ∧ opcodeField (encodeCanonical i) ≠ 0xF#4 := by
  rw [opcodeField_encodeCanonical, Instr.kind]
  cases i.op <;> decide

theorem encodeCanonical_decode {w : InstrWord} (hz : unusedFieldsZero w = true) (hE : opcodeField w ≠ 0xE#4)
    (hF : opcodeField w ≠ 0xF#4) : encodeCanonical (decode w) = w := by
  have row {o : Op} (h : opcodeField w ≠ o.code) : (decode w).op ≠ o := fun e =>
    h ((opcodeField_eq_code_iff w o).2 e)
  rw [encodeCanonical, Instr.canonical_eq_self (fun e => row (o := .unrecE) hE (by rw [e]; rfl))
    (fun e => row (o := .unrecF) hF (by rw [e]; rfl)), encode_decode hz]

/-- Settles O5: the encoder's word has a canonical opcode and zero unused fields, so a word it restores has both. -/
theorem canonicalEncoderRoundTrip : Obligations.CanonicalEncoderRoundTrip := by
  refine ⟨fun i => ⟨opcodeField_encodeCanonical i, unusedFieldsZero_encode _⟩, fun i => decode_encodeCanonical,
    fun w => ⟨fun e => ?_, fun ⟨hz, hE, hF⟩ => encodeCanonical_decode hz hE hF⟩⟩
  rw [← e]
  exact ⟨unusedFieldsZero_encode _, opcodeField_encodeCanonical_ne _⟩

end Sys2Proof
end

section
/-! PROOFS of the family spec/30_encoding.md, the Tokenizer (R62, R63). -/

namespace Sys2Proof.Machine

/-! The characters (R63). -/

theorem isSpaceChar_iff (c : Char) : isSpaceChar c = true ↔ c.toNat ∈ [0x20, 0x09, 0x0A, 0x0B, 0x0C, 0x0D] := by
  simp only [isSpaceChar, Bool.or_eq_true, Bool.and_eq_true, decide_eq_true_eq, List.mem_cons, List.not_mem_nil,
    or_false]
  omega

/-- The letters `a` to `z`, which uppercasing replaces. -/
abbrev IsLowerChar (c : Char) : Prop := 0x61 ≤ c.toNat ∧ c.toNat ≤ 0x7A

theorem upperChar_of_not_lower {c : Char} (h : ¬ IsLowerChar c) : upperChar c = c := if_neg h

theorem toNat_upperChar_of_lower {c : Char} (h : IsLowerChar c) :
    (upperChar c).toNat = c.toNat - 0x20 := by
  rw [upperChar, if_pos h, Char.toNat_ofNat, if_pos]
  left; omega

/-- Uppercasing leaves no lower-case letter. -/
theorem upperChar_not_lower (c : Char) : ¬ IsLowerChar (upperChar c) := by
  by_cases h : IsLowerChar c
  · rw [IsLowerChar, toNat_upperChar_of_lower h]; omega
  · rwa [upperChar_of_not_lower h]

@[simp] theorem isSpaceChar_upperChar (c : Char) : isSpaceChar (upperChar c) = isSpaceChar c := by
  by_cases h : IsLowerChar c
  · have hu := toNat_upperChar_of_lower h
    rw [Bool.eq_iff_iff, isSpaceChar_iff, isSpaceChar_iff, hu]
    simp only [List.mem_cons, List.not_mem_nil, or_false]
    omega
  · rw [upperChar_of_not_lower h]

@[simp] theorem upperChar_eq_hash_iff (c : Char) : upperChar c = '#' ↔ c = '#' := by
  by_cases h : IsLowerChar c
  · have hu := toNat_upperChar_of_lower h
    constructor
    · intro e
      rw [e, show ('#' : Char).toNat = 35 from rfl] at hu
      omega
    · rintro rfl
      exact absurd h (by decide)
  · rw [upperChar_of_not_lower h]

@[simp] theorem upperChar_upperChar (c : Char) : upperChar (upperChar c) = upperChar c :=
  upperChar_of_not_lower (upperChar_not_lower c)

/-! Step 1 of R62: the comment. -/

theorem stripComment_append_comment (line comment : Line) :
    stripComment (line ++ '#' :: comment) = stripComment line := by
  induction line with
  | nil => rfl
  | cons c line ih =>
    simp only [stripComment, List.cons_append, List.takeWhile_cons] at ih ⊢
    rw [ih]

theorem stripComment_append {before : Line} (h : '#' ∉ before) (rest : Line) :
    stripComment (before ++ rest) = before ++ stripComment rest :=
  List.takeWhile_append_of_pos fun _ hc => decide_eq_true (ne_of_mem_of_not_mem hc h)

theorem stripComment_of_not_mem {line : Line} (h : '#' ∉ line) : stripComment line = line := by
  simpa [stripComment] using stripComment_append h []

theorem mem_stripComment {line : Line} {c : Char} (h : c ∈ stripComment line) : c ≠ '#' := by
  simpa using List.mem_takeWhile_imp h

theorem stripComment_map_upperChar (line : Line) :
    stripComment (line.map upperChar) = (stripComment line).map upperChar := by
  rw [stripComment, List.takeWhile_map]
  simp [stripComment, Function.comp_def]

/-! Step 2: the split at whitespace. -/

theorem splitTokens_append (cur : Token) {before after : List Char} {c : Char} (hc : isSpaceChar c = true) :
    splitTokens cur (before ++ c :: after) = splitTokens cur before ++ splitTokens [] after := by
  induction before generalizing cur with
  | nil => simp [splitTokens, hc]
  | cons b before ih =>
    rw [List.cons_append, splitTokens, splitTokens]
    split
    · rw [ih, List.append_assoc]
    · exact ih _

/-- Without whitespace the split finds one token, or none if there is nothing. -/
theorem splitTokens_of_no_space (cur : Token) {l : List Char} (h : ∀ c ∈ l, isSpaceChar c = false) :
    splitTokens cur l = flushToken (cur ++ l) := by
  induction l generalizing cur with
  | nil => rw [splitTokens, List.append_nil]
  | cons c l ih =>
    rw [splitTokens, if_neg (by simp [h c]), ih _ fun d hd => h d (by simp [hd]), List.append_assoc]
    rfl

theorem flushToken_map (f : Char → Char) (cur : Token) :
    flushToken (cur.map f) = (flushToken cur).map (List.map f) := by
  cases cur <;> rfl

theorem mem_flushToken {t cur : Token} : t ∈ flushToken cur ↔ t = cur ∧ t ≠ [] := by
  cases cur with
  | nil => simp [flushToken]
  | cons c cs =>
    rw [flushToken, List.mem_singleton]
    exact ⟨fun e => ⟨e, e ▸ List.cons_ne_nil c cs⟩, And.left⟩

theorem splitTokens_map_upperChar (cur : Token) (l : List Char) :
    splitTokens (cur.map upperChar) (l.map upperChar) = (splitTokens cur l).map (List.map upperChar) := by
  induction l generalizing cur with
  | nil => exact flushToken_map upperChar cur
  | cons c l ih =>
    rw [List.map_cons, splitTokens, splitTokens, isSpaceChar_upperChar]
    split
    · rw [flushToken_map, List.map_append, ← ih, List.map_nil]
    · rw [← ih, List.map_append, List.map_singleton]

/-- A token of the split is not empty, and its characters are characters of the text that are not whitespace. -/
theorem mem_splitTokens {cur t : Token} {l : List Char} (hcur : ∀ c ∈ cur, isSpaceChar c = false)
    (h : t ∈ splitTokens cur l) : t ≠ [] ∧ ∀ c ∈ t, isSpaceChar c = false ∧ (c ∈ cur ∨ c ∈ l) := by
  induction l generalizing cur with
  | nil =>
    obtain ⟨rfl, hne⟩ := mem_flushToken.1 h
    exact ⟨hne, fun c hc => ⟨hcur c hc, .inl hc⟩⟩
  | cons d l ih =>
    rw [splitTokens] at h
    split at h
    · rcases List.mem_append.1 h with h | h
      · obtain ⟨rfl, hne⟩ := mem_flushToken.1 h
        exact ⟨hne, fun c hc => ⟨hcur c hc, .inl hc⟩⟩
      · obtain ⟨hne, hall⟩ := ih (List.forall_mem_nil _) h
        exact ⟨hne, fun c hc => (hall c hc).imp_right fun hmem =>
          .inr (List.mem_cons_of_mem d (hmem.resolve_left List.not_mem_nil))⟩
    · next hd =>
      obtain ⟨hne, hall⟩ := ih (cur := cur ++ [d]) (by simpa [or_imp, forall_and, hd] using hcur) h
      exact ⟨hne, fun c hc => (hall c hc).imp_right fun hmem => by simpa [or_assoc] using hmem⟩

/-! The whole (R62). -/

theorem tokenize_append_comment (line comment : Line) : tokenize (line ++ '#' :: comment) = tokenize line := by
  rw [tokenize, stripComment_append_comment, tokenize]

theorem tokenize_append {before : Line} (after : Line) {c : Char} (hc : isSpaceChar c = true) (h : '#' ∉ before) :
    tokenize (before ++ c :: after) = tokenize before ++ tokenize after := by
  have hcomment : c ≠ '#' := by rintro rfl; cases hc
  have hstrip : stripComment (before ++ c :: after) = stripComment before ++ c :: stripComment after := by
    rw [stripComment_append h, stripComment_of_not_mem h]
    simp [stripComment, hcomment]
  simp only [tokenize, hstrip, splitTokens_append _ hc, List.map_append]

theorem tokenize_of_all_space {line : Line} (h : ∀ c ∈ line, isSpaceChar c = true) : tokenize line = [] := by
  induction line with
  | nil => rfl
  | cons c line ih =>
    rw [← List.nil_append (c :: line), tokenize_append line (h c (by simp)) (by simp),
      ih fun d hd => h d (by simp [hd])]
    rfl

theorem tokenize_map_upperChar (line : Line) : tokenize (line.map upperChar) = tokenize line := by
  have hsplit := splitTokens_map_upperChar [] (stripComment line)
  rw [List.map_nil] at hsplit
  simp only [tokenize, stripComment_map_upperChar, hsplit, List.map_map, Function.comp_def, upperChar_upperChar]

/-- What every token is: not empty, without whitespace, comment sign and lower-case letter. -/
def CleanToken (t : Token) : Prop :=
  t ≠ [] ∧ ∀ c ∈ t, isSpaceChar c = false ∧ c ≠ '#' ∧ ¬ IsLowerChar c

theorem cleanToken_of_mem_tokenize {line : Line} {t : Token} (h : t ∈ tokenize line) : CleanToken t := by
  obtain ⟨u, hu, rfl⟩ := List.mem_map.1 h
  obtain ⟨hne, hall⟩ := mem_splitTokens (List.forall_mem_nil _) hu
  refine ⟨by simpa using hne, fun c hc => ?_⟩
  obtain ⟨d, hd, rfl⟩ := List.mem_map.1 hc
  obtain ⟨hspace, hmem⟩ := hall d hd
  have hline : d ∈ stripComment line := by simpa using hmem
  exact ⟨by rwa [isSpaceChar_upperChar], fun e => mem_stripComment hline ((upperChar_eq_hash_iff d).1 e),
    upperChar_not_lower d⟩

theorem CleanToken.hash_not_mem {t : Token} (h : CleanToken t) : '#' ∉ t := fun hc => (h.2 _ hc).2.1 rfl

/-- A clean token alone is found as it stands. -/
theorem tokenize_of_clean {t : Token} (h : CleanToken t) : tokenize t = [t] := by
  have hflush : flushToken t = [t] := by
    cases t with
    | nil => exact absurd rfl h.1
    | cons c cs => rfl
  have hupper : t.map upperChar = t :=
    (List.map_congr_left fun c hc => upperChar_of_not_lower (h.2 c hc).2.2).trans t.map_id
  rw [tokenize, stripComment_of_not_mem h.hash_not_mem, splitTokens_of_no_space [] fun c hc => (h.2 c hc).1,
    List.nil_append, hflush, List.map_singleton, hupper]

theorem tokenize_joinTokens {ts : List Token} (h : ∀ t ∈ ts, CleanToken t) : tokenize (joinTokens ts) = ts := by
  match ts with
  | [] => rfl
  | [t] => exact tokenize_of_clean (h t (by simp))
  | t :: u :: ts =>
    have ht : CleanToken t := h t (by simp)
    rw [joinTokens, tokenize_append _ (by decide) ht.hash_not_mem, tokenize_of_clean ht,
      tokenize_joinTokens fun v hv => h v (List.mem_cons_of_mem t hv)]
    · rfl
    · nofun

/-- Settles O59, clause by clause. -/
theorem tokenizerYieldsCleanTokens : Obligations.TokenizerYieldsCleanTokens :=
  ⟨isSpaceChar_iff, tokenize_append_comment, fun _ after _ hc h => tokenize_append after hc h,
    fun _ => tokenize_of_all_space, fun line => (tokenize_map_upperChar line).symm,
    fun _ _ => cleanToken_of_mem_tokenize, fun _ => tokenize_joinTokens⟩

end Sys2Proof.Machine
end

section
/-! PROOFS of the family spec/30_encoding.md, the Operand Resolver and the assembler (R64 to R72), and the text-level
reading of a line (R74). -/

namespace Sys2Proof.Machine

/-! Digits and register tokens (R65, R66). -/

theorem isDigitChar_ofNat {n : Nat} (h : n < 10) : isDigitChar (Char.ofNat (0x30 + n)) = true := by
  revert n; decide

theorem digitValue_ofNat {n : Nat} (h : n < 10) : digitValue (Char.ofNat (0x30 + n)) = n := by
  revert n; decide

theorem ofNat_digitValue {c : Char} (h : isDigitChar c = true) : Char.ofNat (0x30 + digitValue c) = c := by
  simp only [isDigitChar, Bool.and_eq_true, decide_eq_true_eq] at h
  rw [digitValue, Nat.add_sub_cancel' h.1, Char.ofNat_toNat]

section RegisterToken

variable (k : Fin Config.numRegs) (rest : List Char)

theorem regOperand_registerToken : regOperand ('R' :: Char.ofNat (0x30 + k) :: rest) = BitVec.ofNat 4 k := by
  have hk : (k : Nat) < 10 := Nat.lt_trans k.isLt (by decide)
  simp [regOperand, isDigitChar_ofNat hk, digitValue_ofNat hk, k.isLt]

theorem textReg_registerToken : textReg ('R' :: Char.ofNat (0x30 + k) :: rest) = some k := by
  have hk : (k : Nat) < 10 := Nat.lt_trans k.isLt (by decide)
  simp [textReg, isDigitChar_ofNat hk, digitValue_ofNat hk, k.isLt]

theorem toNat_registerField : (BitVec.ofNat 4 k).toNat = k := by
  revert k; decide

end RegisterToken

/-- A token names a register by its first two characters, or it is invalid for the resolver and for the text alike. -/
theorem registerToken_cases (t : Token) :
    (∃ (k : Fin Config.numRegs) (rest : List Char), t = 'R' :: Char.ofNat (0x30 + k) :: rest) ∨
      (regOperand t = 0xF#4 ∧ textReg t = none) := by
  match t with
  | [] | [_] => exact .inr ⟨rfl, rfl⟩
  | c :: d :: rest =>
    by_cases h : c = 'R' ∧ isDigitChar d ∧ digitValue d < Config.numRegs
    · obtain ⟨rfl, hd, hlt⟩ := h
      exact .inl ⟨⟨digitValue d, hlt⟩, rest, by rw [ofNat_digitValue hd]⟩
    · refine .inr ⟨if_neg h, ?_⟩
      simp only [textReg]
      split
      · next hcd => rw [dif_neg fun hlt => h ⟨hcd.1, hcd.2, hlt⟩]
      · rfl

/-- Settles O58: the two cases of a register token. -/
theorem registerTokenResolves : Obligations.RegisterTokenResolves := by
  refine ⟨fun k rest => by rw [regOperand_registerToken, toNat_registerField], fun t h => ?_⟩
  rcases registerToken_cases t with ⟨k, rest, e⟩ | ⟨e, -⟩
  · exact absurd e (h k rest)
  · exact e

/-- The field of a register token names the register the text names. -/
@[simp] theorem regIndex_regOperand (t : Token) : regIndex (regOperand t) = textReg t := by
  rcases registerToken_cases t with ⟨k, rest, rfl⟩ | ⟨ho, ht⟩
  · rw [textReg_registerToken, regOperand_registerToken, regIndex_eq_some, toNat_registerField]
  · rw [ho, ht]; rfl

/-! Address and target tokens (R67, R68). -/

/-- The resolver keeps the number of the text where it fits 32 bits, and gives -1 for every other token. -/
theorem addrOperand_cases (prefixes : List Char) (t : Token) :
    (textNumber prefixes t = some (addrOperand prefixes t) ∧ immFits (addrOperand prefixes t) = true) ∨
      (addrOperand prefixes t = -1 ∧ ∀ z, textNumber prefixes t = some z → immFits z = false) := by
  simp only [addrOperand, textNumber]
  by_cases hl : isLiteral (dropPrefix prefixes t) = true
  · by_cases hf : immFits (litValue (dropPrefix prefixes t)) = true
    · simp [hl, hf]
    · simp [hl, hf]
  · simp [hl]

theorem immFits_addrOperand (prefixes : List Char) (t : Token) : immFits (addrOperand prefixes t) = true := by
  rcases addrOperand_cases prefixes t with ⟨-, h⟩ | ⟨h, -⟩
  · exact h
  · rw [h]; decide

theorem immFits_of_bounds {z : Int} (h0 : 0 ≤ z) (h1 : z < Config.memCells) : immFits z = true := by
  simp only [immFits, Config.minInt, Config.maxInt, Config.memCells, Bool.and_eq_true, decide_eq_true_eq] at h1 ⊢
  omega

/-- A number that does not fit 32 bits is no address. -/
theorem addrIndex_of_not_fits {z : Int} (h : immFits z = false) : addrIndex z = none := by
  rw [addrIndex_eq_none]
  by_contra! hz
  simp [immFits_of_bounds hz.1 hz.2] at h

/-- Nor is it the target of a branch in a program that fits. -/
theorem State.targetValid_of_not_fits {s : State} (hlen : s.progLen ≤ Config.memCells) {z : Int}
    (h : immFits z = false) : s.targetValid z = false := by
  by_contra ht
  obtain ⟨h0, h1⟩ := (s.targetValid_iff z).1 (by simpa using ht)
  have hlen' : (s.prog.length : Int) ≤ Config.memCells := by exact_mod_cast hlen
  simp [immFits_of_bounds h0 (by omega)] at h

theorem State.targetValid_neg_one (s : State) : s.targetValid (-1) = false := rfl

@[simp] theorem addrIndex_addrOperand (prefixes : List Char) (t : Token) :
    addrIndex (addrOperand prefixes t) = textCell prefixes t := by
  unfold textCell
  rcases addrOperand_cases prefixes t with ⟨h, -⟩ | ⟨h, hbig⟩
  · rw [h]; rfl
  · rw [h]
    cases ht : textNumber prefixes t with
    | none => rfl
    | some z => exact (addrIndex_of_not_fits (hbig z ht)).symm

/-! The lines of a mnemonic with enough operands, and the malformed ones (R64, R69, R70). -/

/-- The token of a mnemonic spells no other. -/
@[simp] theorem Mnemonic.ofToken_spelling (m : Mnemonic) : Mnemonic.ofToken m.spelling = some m := by
  cases m <;> rfl

theorem Mnemonic.ofToken_eq_some_iff {t : Token} {m : Mnemonic} : Mnemonic.ofToken t = some m ↔ m.spelling = t := by
  constructor
  · intro h
    simpa using List.find?_some h
  · rintro rfl
    exact m.ofToken_spelling

/-- The operands of a mnemonic, at least as many as it needs: the shapes the table of R69 has rows for. -/
inductive EnoughOperands : Mnemonic → List Token → Prop where
  | load (reg src : Token) (rest : List Token) : EnoughOperands .load (reg :: src :: rest)
  | store (addr reg : Token) (rest : List Token) : EnoughOperands .store (addr :: reg :: rest)
  | move (a b : Token) (rest : List Token) : EnoughOperands .move (a :: b :: rest)
  | add (a b c : Token) (rest : List Token) : EnoughOperands .add (a :: b :: c :: rest)
  | sub (a b c : Token) (rest : List Token) : EnoughOperands .sub (a :: b :: c :: rest)
  | and (a b c : Token) (rest : List Token) : EnoughOperands .and (a :: b :: c :: rest)
  | or (a b c : Token) (rest : List Token) : EnoughOperands .or (a :: b :: c :: rest)
  | branch (a : Token) (rest : List Token) : EnoughOperands .branch (a :: rest)
  | bezero (a : Token) (rest : List Token) : EnoughOperands .bezero (a :: rest)
  | bneg (a : Token) (rest : List Token) : EnoughOperands .bneg (a :: rest)
  | nop (rest : List Token) : EnoughOperands .nop rest
  | halt (rest : List Token) : EnoughOperands .halt rest

theorem enoughOperands_of_minOperands {m : Mnemonic} {ops : List Token} (h : m.minOperands ≤ ops.length) :
    EnoughOperands m ops := by
  match m, ops with
  | .load, reg :: src :: rest => exact .load reg src rest
  | .store, addr :: reg :: rest => exact .store addr reg rest
  | .move, a :: b :: rest => exact .move a b rest
  | .add, a :: b :: c :: rest => exact .add a b c rest
  | .sub, a :: b :: c :: rest => exact .sub a b c rest
  | .and, a :: b :: c :: rest => exact .and a b c rest
  | .or, a :: b :: c :: rest => exact .or a b c rest
  | .branch, a :: rest => exact .branch a rest
  | .bezero, a :: rest => exact .bezero a rest
  | .bneg, a :: rest => exact .bneg a rest
  | .nop, rest => exact .nop rest
  | .halt, rest => exact .halt rest
  | .load, [] | .load, [_] | .store, [] | .store, [_] | .move, [] | .move, [_] | .add, [] | .add, [_] | .add, [_, _]
  | .sub, [] | .sub, [_] | .sub, [_, _] | .and, [] | .and, [_] | .and, [_, _] | .or, [] | .or, [_] | .or, [_, _]
  | .branch, [] | .bezero, [] | .bneg, [] => exact absurd h (by simp [Mnemonic.minOperands])

/-- Settles O57: the row of a mnemonic reads no token past the operands it needs. -/
theorem extraOperandsIgnored : Obligations.ExtraOperandsIgnored := by
  intro prefixes m ops extra h
  cases enoughOperands_of_minOperands h <;> rfl

/-- Malformed (R70): whatever mnemonic the first token spells, too few operands follow it. This holds also where it
spells none, and of a line without a token. -/
def MalformedTokens : List Token → Prop
  | [] => True
  | t :: ops => ∀ m : Mnemonic, m.spelling = t → ops.length < m.minOperands

theorem malformed_or_enough (ts : List Token) :
    MalformedTokens ts ∨ ∃ m ops, ts = Mnemonic.spelling m :: ops ∧ m.minOperands ≤ ops.length := by
  match ts with
  | [] => exact .inl trivial
  | t :: ops =>
    by_cases h : ∀ m : Mnemonic, m.spelling = t → ops.length < m.minOperands
    · exact .inl h
    · push Not at h
      obtain ⟨m, rfl, hm⟩ := h
      exact .inr ⟨m, ops, rfl, hm⟩

theorem assembleTokens_of_malformed (prefixes : List Char) {ts : List Token} (h : MalformedTokens ts) :
    assembleTokens prefixes ts = some .unrec0 := by
  match ts with
  | [] => rfl
  | t :: ops =>
    cases hm : Mnemonic.ofToken t with
    | none => simp [assembleTokens, hm]
    | some m =>
      have hfew := h m (Mnemonic.ofToken_eq_some_iff.1 hm)
      simp only [assembleTokens, hm]
      split
      case h_13 => rfl
      all_goals
        next hrow =>
          cases hrow
          simp only [Mnemonic.minOperands, List.length_cons] at hfew
          omega

/-- A LOAD line is refused iff its second operand is a literal that does not fit (R72). -/
theorem assembleLoad_eq_none_iff (prefixes : List Char) (reg src : Token) :
    assembleLoad prefixes reg src = none ↔ isLiteral src = true ∧ immFits (litValue src) = false := by
  unfold assembleLoad
  cases isLiteral src <;> cases immFits (litValue src) <;> simp

/-! The meanings of the resolved operands are the rows of the text-level table (R74). -/

theorem binary_regOperand (f : Word → Word → Word) (a b c : Token) (s : State) :
    s.binary f (regOperand a) (regOperand b) (regOperand c) = textBinary f a b c s := by
  simp only [State.binary, regIndex_regOperand]
  rfl

theorem unary_regOperand (a b : Token) (s : State) : s.unary (regOperand a) (regOperand b) = textMove a b s := by
  simp only [State.unary, regIndex_regOperand]
  rfl

theorem storeCell_operands (prefixes : List Char) (addr reg : Token) (s : State) :
    s.storeCell (regOperand reg) (addrOperand prefixes addr) = textStore prefixes addr reg s := by
  simp only [State.storeCell, textStore, regIndex_regOperand, addrIndex_addrOperand]
  cases textReg reg <;> cases textCell prefixes addr <;> rfl

theorem branchIf_targetOperand {s : State} (hlen : s.progLen ≤ Config.memCells) (prefixes : List Char) (c : Bool)
    (t : Token) : s.branchIf c (targetOperand prefixes t) = textBranch prefixes c t s := by
  unfold targetOperand textBranch
  rcases addrOperand_cases prefixes t with ⟨h, -⟩ | ⟨h, hbig⟩
  · rw [h]; rfl
  · rw [h]
    cases ht : textNumber prefixes t with
    | none => simp [State.branchIf, State.targetValid_neg_one]
    | some z => simp [State.branchIf, State.targetValid_neg_one, State.targetValid_of_not_fits hlen (hbig z ht)]

/-- Executing the word of `i` in `s` changes the state tuple as the text-level reading `r` says. -/
def ActsAsText (i : Instr) (s : State) (r : Option State) : Prop :=
  ∃ t u, exec (decode (encodeCanonical i)) s = .next t ∧ r = some u ∧ t.tuple = u.tuple

theorem actsAsText_of_exec {i : Instr} {s t : State} {r : Option State} (hw : i.wellFormed = true)
    (hk : i.kind ≠ .unrec) (ht : exec i s = .next t) (hr : r = some t) : ActsAsText i s r := by
  refine ⟨t, t, ?_, hr, rfl⟩
  rwa [decode_encodeCanonical hw (by rintro rfl; exact hk rfl) (by rintro rfl; exact hk rfl)]

theorem actsAsText_assembleLoad {prefixes : List Char} {reg src : Token} {i : Instr} (s : State)
    (h : assembleLoad prefixes reg src = some i) : ActsAsText i s (textLoad prefixes reg src s) := by
  unfold assembleLoad at h
  split at h
  · next hl =>
    split at h
    · next hf =>
      obtain rfl := Option.some.inj h
      refine actsAsText_of_exec hf nofun rfl ?_
      simp only [textLoad, hl, hf, State.writeDest, regIndex_regOperand, if_true]
      cases textReg reg <;> rfl
    · cases h
  · next hl =>
    obtain rfl := Option.some.inj h
    refine actsAsText_of_exec (immFits_addrOperand prefixes src) nofun rfl ?_
    simp only [textLoad, hl, State.loadCell, regIndex_regOperand, addrIndex_addrOperand]
    cases textReg reg <;> cases textCell prefixes src <;> rfl

/-- Row by row of R69: the instruction of a mnemonic with enough operands acts as the table's row. -/
theorem actsAsText_textEffect {prefixes : List Char} {m : Mnemonic} {ops : List Token} {i : Instr} {s : State}
    (hlen : s.progLen ≤ Config.memCells) (hops : EnoughOperands m ops)
    (h : assembleTokens prefixes (m.spelling :: ops) = some i) : ActsAsText i s (textEffect prefixes m ops s) := by
  cases hops with
  | load reg src rest => exact actsAsText_assembleLoad s h
  | store addr reg rest =>
    cases h
    exact actsAsText_of_exec (immFits_addrOperand prefixes addr) nofun rfl
      (congrArg some (storeCell_operands prefixes addr reg s).symm)
  | move a b rest =>
    cases h
    exact actsAsText_of_exec rfl nofun rfl (congrArg some (unary_regOperand a b s).symm)
  | add a b c rest | sub a b c rest | and a b c rest | or a b c rest =>
    cases h
    exact actsAsText_of_exec rfl nofun rfl (congrArg some (binary_regOperand _ a b c s).symm)
  | branch a rest | bezero a rest | bneg a rest =>
    cases h
    exact actsAsText_of_exec (immFits_addrOperand prefixes a) nofun rfl
      (congrArg some (branchIf_targetOperand hlen prefixes _ a).symm)
  | nop rest | halt rest =>
    cases h
    exact actsAsText_of_exec rfl nofun rfl rfl

theorem textExec_of_malformed (prefixes : List Char) {line : Line} (s : State) (h : MalformedTokens (tokenize line)) :
    textExec prefixes line s = some s.advance := by
  unfold textExec
  split
  · rfl
  · next t ops hts =>
    rw [hts] at h
    split
    · rfl
    · next m hm => rw [if_pos (h m (Mnemonic.ofToken_eq_some_iff.1 hm))]

theorem textExec_of_enough (prefixes : List Char) {line : Line} {m : Mnemonic} {ops : List Token} (s : State)
    (hts : tokenize line = m.spelling :: ops) (h : m.minOperands ≤ ops.length) :
    textExec prefixes line s = textEffect prefixes m ops s := by
  simp [textExec, hts, Nat.not_lt.2 h]

/-- A malformed line's word is the unrecognized one, which reports, outside the state tuple, and advances (R150). -/
theorem actsAsText_unrec (s : State) : ActsAsText .unrec0 s (some s.advance) :=
  ⟨s.reportAndAdvance, s.advance, rfl, rfl, by simp [State.tuple, State.reportAndAdvance]⟩

/-- Settles O54: a malformed line, or a mnemonic with enough operands. -/
theorem assembledWordActsAsItsLine : Obligations.AssembledWordActsAsItsLine := by
  intro prefixes line w s hlen h
  obtain ⟨i, hi, rfl⟩ := Option.map_eq_some_iff.1 h
  rw [assembleInstr] at hi
  rcases malformed_or_enough (tokenize line) with hbad | ⟨m, ops, hts, hops⟩
  · rw [assembleTokens_of_malformed prefixes hbad] at hi
    cases hi
    rw [textExec_of_malformed prefixes s hbad]
    exact actsAsText_unrec s
  · rw [hts] at hi
    rw [textExec_of_enough prefixes s hts hops]
    exact actsAsText_textEffect hlen (enoughOperands_of_minOperands hops) hi

/-! Refused and malformed lines (R70, R72). -/

theorem assemble_eq_none_iff (prefixes : List Char) (line : Line) :
    assemble prefixes line = none ↔ assembleTokens prefixes (tokenize line) = none := by
  rw [assemble, assembleInstr, Option.map_eq_none_iff]

/-- Of the rows of R69, that of LOAD alone can refuse. -/
theorem eq_load_of_assembleTokens_eq_none {prefixes : List Char} {m : Mnemonic} {ops : List Token}
    (hops : EnoughOperands m ops) (h : assembleTokens prefixes (m.spelling :: ops) = none) :
    ∃ reg src rest, m = .load ∧ ops = reg :: src :: rest ∧ assembleLoad prefixes reg src = none := by
  cases hops
  case load reg src rest => exact ⟨reg, src, rest, rfl, rfl, h⟩
  all_goals cases h

theorem immFits_eq_false_iff (z : Int) : immFits z = false ↔ z < -(2 ^ 31) ∨ 2 ^ 31 - 1 < z := by
  simp only [immFits, Config.minInt, Config.maxInt, Bool.and_eq_false_iff, decide_eq_false_iff_not]
  omega

/-- Settles O55: only the row of LOAD refuses, and only a literal that does not fit. -/
theorem onlyOversizedLiteralsRefused : Obligations.OnlyOversizedLiteralsRefused := by
  intro prefixes line
  rw [assemble_eq_none_iff]
  constructor
  · intro h
    rcases malformed_or_enough (tokenize line) with hbad | ⟨m, ops, hts, hops⟩
    · rw [assembleTokens_of_malformed prefixes hbad] at h
      cases h
    · rw [hts] at h
      obtain ⟨reg, src, rest, rfl, rfl, hload⟩ :=
        eq_load_of_assembleTokens_eq_none (enoughOperands_of_minOperands hops) h
      obtain ⟨hlit, hbig⟩ := (assembleLoad_eq_none_iff prefixes reg src).1 hload
      exact ⟨reg, src, rest, hts, hlit, (immFits_eq_false_iff _).1 hbig⟩
  · rintro ⟨reg, src, rest, hts, hlit, hbig⟩
    rw [hts]
    exact (assembleLoad_eq_none_iff prefixes reg src).2 ⟨hlit, (immFits_eq_false_iff _).2 hbig⟩

theorem assemble_of_malformed (prefixes : List Char) {line : Line} (h : MalformedTokens (tokenize line)) :
    assemble prefixes line = some 0x000000000000#48 := by
  rw [assemble, assembleInstr, assembleTokens_of_malformed prefixes h]
  decide

/-- Settles O56: the three ways to be malformed. -/
theorem malformedLinesAssembleToZero : Obligations.MalformedLinesAssembleToZero := by
  intro prefixes line
  refine ⟨fun hts => assemble_of_malformed prefixes ?_, fun t ops hts =>
    ⟨fun hnone => assemble_of_malformed prefixes ?_, fun m hm hfew => assemble_of_malformed prefixes ?_⟩⟩ <;>
    rw [hts]
  · trivial
  · exact fun m hm => absurd hm (hnone m)
  · intro m' hm'
    have : some m = some m' := by rw [← m.ofToken_spelling, ← m'.ofToken_spelling, hm, hm']
    cases this
    exact hfew

end Sys2Proof.Machine
end

section
/-! PROOFS of the family spec/40_execution_cycle.md, the step: what it traces and reports, where it leaves `pc`, and
that it keeps the invariants of the core. -/

namespace Sys2Proof.Machine

/-! Every instruction, and so every step, has a next state (R97, R154). -/

theorem exec_total (i : Instr) (s : State) : ∃ t, exec i s = .next t := by
  cases i <;> exact ⟨_, rfl⟩

theorem step_total (s : State) : ∃ t, step s = .next t := by
  rcases step_cases s with ⟨-, h⟩ | ⟨w, -, -, h⟩ <;> rw [h]
  · exact ⟨s, rfl⟩
  · exact exec_total (decode w) _

/-- In a RUNNING core the step executes the decoded word at `pc`, its trace entry appended (R90, R91). -/
theorem step_of_running {s : State} {w : InstrWord} (hrun : s.status = .running) (hw : s.prog[s.pc.toNat]? = some w) :
    step s = exec (decode w) (s.emitTrace w) := by
  obtain ⟨w', hfetch, hw'⟩ := State.fetch_of_running hrun
  obtain rfl : w' = w := Option.some.inj (hw'.symm.trans hw)
  simp [step, hrun, hfetch]

theorem step_of_terminal {s : State} (h : s.terminal) : step s = .next s := by
  rcases step_cases s with ⟨-, hs⟩ | ⟨w, hrun, -⟩
  · exact hs
  · exact absurd hrun h

/-- Settles O10: the three bounds are the status RUNNING. -/
theorem stepRunsDecodedInstruction : Obligations.StepRunsDecodedInstruction :=
  fun _ _ hhalt hlow hhigh hw => step_of_running (State.status_running.2 ⟨hhalt, hlow, hhigh⟩) hw

/-! The pulses and what they say of the coming step (R155, R176). -/

theorem State.tracePulse_eq_some {s : State} {e : TraceEntry} :
    s.tracePulse = some e ↔ s.status = .running ∧ s.fetch = some e.word ∧ e.pc = s.pc := by
  obtain ⟨p, w⟩ := e
  unfold State.tracePulse
  split
  · next hrun hfetch => simp [hrun, hfetch, and_comm, eq_comm]
  · next hnot =>
    simp only [reduceCtorEq, false_iff]
    rintro ⟨hrun, hfetch, -⟩
    exact hnot w hrun hfetch

theorem State.tracePulse_of_running {s : State} {w : InstrWord} (hrun : s.status = .running)
    (hfetch : s.fetch = some w) : s.tracePulse = some { pc := s.pc, word := w } :=
  State.tracePulse_eq_some.2 ⟨hrun, hfetch, rfl⟩

theorem State.tracePulse_of_terminal {s : State} (h : s.terminal) : s.tracePulse = none :=
  Option.eq_none_iff_forall_ne_some.2 fun _ he => h (State.tracePulse_eq_some.1 he).1

/-- The unrecognized words are those of the three UNREC rows (R57). -/
theorem kind_decode_eq_unrec_iff (w : InstrWord) :
    (decode w).kind = .unrec ↔ opcodeField w = 0x0#4 ∨ opcodeField w = 0xE#4 ∨ opcodeField w = 0xF#4 := by
  have row (o : Op) : o.kind = .unrec ↔ o = .unrec0 ∨ o = .unrecE ∨ o = .unrecF := by
    cases o <;> simp [Op.kind]
  rw [Instr.kind, row]
  simp only [← opcodeField_eq_code_iff]
  rfl

theorem State.diagPulse_eq_some {s : State} {e : Malformed} :
    s.diagPulse = some e ↔ s.tracePulse = some { pc := e.pc, word := e.word } ∧ (decode e.word).kind = .unrec := by
  unfold State.diagPulse
  cases s.tracePulse with
  | none => simp
  | some f =>
    rw [Option.ite_none_right_eq_some]
    constructor
    · rintro ⟨hu, he⟩; cases he; exact ⟨rfl, hu⟩
    · rintro ⟨hf, hu⟩; cases hf; exact ⟨hu, rfl⟩

/-! What an instruction and a step append to the trace and to the diagnostic channel (R92, R142). -/

/-- No instruction writes the trace: its entry is the step's. -/
theorem exec_trace {i : Instr} {s t : State} (h : exec i s = .next t) : t.trace = s.trace := by
  cases exec_cases h with
  | reported => exact State.emitMalformed_trace s
  | advanced | wroteReg | wroteCell | jumped | halted => rfl

/-- An unrecognized instruction reports the word at `pc`, and no other instruction reports anything. -/
theorem exec_diag {i : Instr} {s t : State} (h : exec i s = .next t) :
    t.diag = if i.kind = .unrec then s.emitMalformed.diag else s.diag := by
  cases exec_cases h with
  | advanced _ hu => rw [if_neg hu]; rfl
  | wroteReg _ _ _ hi =>
    obtain ⟨-, hu, -⟩ := Instr.kind_of_destField hi
    rw [if_neg hu]; rfl
  | wroteCell _ _ _ _ hi => subst hi; rfl
  | jumped _ hi => rcases hi with rfl | rfl | rfl <;> rfl
  | halted hi => subst hi; rfl
  | reported hi => rw [if_pos hi]; rfl

theorem step_trace {s t : State} (h : step s = .next t) : t.trace = s.trace ++ s.tracePulse.toList := by
  rcases step_next h with ⟨hterm, rfl⟩ | ⟨w, hrun, hfetch, -, hexec⟩
  · simp [State.tracePulse_of_terminal hterm]
  · rw [exec_trace hexec, State.tracePulse_of_running hrun hfetch]
    rfl

theorem step_diag {s t : State} (h : step s = .next t) : t.diag = s.diag ++ s.diagPulse.toList := by
  rcases step_next h with ⟨hterm, rfl⟩ | ⟨w, hrun, hfetch, -, hexec⟩
  · simp [State.diagPulse, State.tracePulse_of_terminal hterm]
  · rw [exec_diag hexec, State.diagPulse, State.tracePulse_of_running hrun hfetch]
    by_cases hu : (decode w).kind = .unrec <;> simp [hu, hfetch]

/-- Settles O48: `step_trace` and `step_diag`, and the three unrecognized opcodes. -/
theorem pulsesAreWhatTheStepReports : Obligations.PulsesAreWhatTheStepReports := by
  refine ⟨fun s t h => ⟨step_trace h, step_diag h⟩, fun s e => ?_⟩
  rw [State.diagPulse_eq_some, State.tracePulse_eq_some, kind_decode_eq_unrec_iff, and_assoc, and_assoc]

/-! The trace and the events as fetches of the program (R91, R92). -/

theorem step_traceOfFetches {s t : State} (hs : s.TraceOfFetches) (h : step s = .next t) : t.TraceOfFetches := by
  intro e he
  rw [step_trace h, List.mem_append, Option.mem_toList] at he
  rw [step_prog h]
  rcases he with hold | hnew
  · exact hs e hold
  · obtain ⟨hrun, hfetch, hpc⟩ := State.tracePulse_eq_some.1 hnew
    obtain ⟨w, hfetch', hw⟩ := State.fetch_of_running hrun
    obtain ⟨-, hlow, -⟩ := State.status_running.1 hrun
    rw [hpc, hw, ← hfetch', hfetch]
    exact ⟨hlow, rfl⟩

/-- Settles O15: the one entry that a step adds is its fetch. -/
theorem stepKeepsTraceOfFetches : Obligations.StepKeepsTraceOfFetches := fun _ _ => step_traceOfFetches

theorem malformedOf_tracePulse (s : State) : malformedOf s.tracePulse.toList = s.diagPulse.toList := by
  unfold State.diagPulse
  cases s.tracePulse with
  | none => rfl
  | some e => by_cases hu : (decode e.word).kind = .unrec <;> simp [malformedOf, hu]

theorem step_diagOfTrace {s t : State} (hs : s.DiagOfTrace) (h : step s = .next t) : t.DiagOfTrace := by
  have happend (a b : List TraceEntry) : malformedOf (a ++ b) = malformedOf a ++ malformedOf b := by
    simp [malformedOf]
  rw [State.DiagOfTrace, step_trace h, happend, malformedOf_tracePulse, ← hs, step_diag h]

/-- The step that sets the flag is a HALT's, which traces its own fetch and leaves `pc` (R141). -/
theorem step_haltTraced {s t : State} (hs : s.HaltTraced) (h : step s = .next t) : t.HaltTraced := by
  rcases step_next h with ⟨-, rfl⟩ | ⟨w, hrun, -, -, hexec⟩
  · exact hs
  · obtain ⟨hnot, -⟩ := State.status_running.1 hrun
    intro ht
    have hw : decode w = .halt := ((exec_halted_iff hexec).1 ht).resolve_left (by simp [hnot])
    rw [hw] at hexec
    cases hexec
    simp [hw, Instr.kind, Instr.op, Op.kind]

/-- Settles O17. -/
theorem stepKeepsHaltTraced : Obligations.StepKeepsHaltTraced := fun _ _ => step_haltTraced

/-! Where an instruction leaves `pc` (R96, R130). -/

theorem exec_pc_cases {i : Instr} {s t : State} (h : exec i s = .next t) :
    (i ≠ .halt ∧ t.pc = s.pc + 1) ∨
      (∃ imm, (i = .branch imm ∨ i = .bezero imm ∨ i = .bneg imm) ∧ s.targetValid imm = true ∧ t.pc = wrap imm) ∨
      (i = .halt ∧ t.pc = s.pc) := by
  cases exec_cases h with
  | advanced hh => exact .inl ⟨hh, rfl⟩
  | wroteReg _ _ _ hi =>
    obtain ⟨hh, -⟩ := Instr.kind_of_destField hi
    exact .inl ⟨hh, rfl⟩
  | wroteCell _ _ _ _ hi => exact .inl ⟨by simp [hi], rfl⟩
  | jumped imm hi ht => exact .inr (.inl ⟨imm, hi, ht, rfl⟩)
  | halted hi => exact .inr (.inr ⟨hi, rfl⟩)
  | reported hi =>
    have hh : i ≠ .halt := by rintro rfl; cases hi
    exact .inl ⟨hh, by simp⟩

theorem State.branchIf_pc (s : State) (c : Bool) (imm : Int) :
    (s.branchIf c imm).pc = if c = true ∧ 0 ≤ imm ∧ imm < s.prog.length then wrap imm else s.pc + 1 := by
  simp only [← State.targetValid_iff]
  rcases State.branchIf_cases s c imm with ⟨hc, ht, e⟩ | ⟨hnot, e⟩ <;> rw [e]
  · rw [if_pos ⟨hc, ht⟩]; rfl
  · rw [if_neg (by rintro ⟨hc, ht⟩; simp [hc, ht] at hnot)]; rfl

/-- A program index that the core can stand at has a successor that does not overflow (R14). -/
theorem State.signed_pc_add_one {s : State} (hinv : s.Inv) (hrun : s.status = .running) :
    signed (s.pc + 1) = signed s.pc + 1 := by
  obtain ⟨-, hlen, -⟩ := hinv
  obtain ⟨-, hlow, hhigh⟩ := State.status_running.1 hrun
  rw [State.progLen_eq, Config.memCells] at hlen
  unfold signed at *
  rw [BitVec.toInt_add]
  exact Int.bmod_eq_of_le (by simp; omega) (by simp; omega)

/-- Settles O22: `exec_pc_cases` for the instructions that only advance, `State.branchIf_pc` for the branches. -/
theorem defaultAdvance : Obligations.DefaultAdvance := by
  refine ⟨fun i s t h hbranch hbezero hbneg hhalt => ?_, fun imm s t h => ?_, fun imm s t h => ?_, fun imm s t h => ?_,
    fun s t h => ?_, fun s => State.signed_pc_add_one⟩
  · rcases exec_pc_cases h with ⟨-, hpc⟩ | ⟨imm, rfl | rfl | rfl, -⟩ | ⟨rfl, -⟩
    · exact hpc
    · exact absurd rfl hbranch
    · exact absurd rfl hbezero
    · exact absurd rfl hbneg
    · exact absurd rfl hhalt
  · cases h; simp [State.branchIf_pc]
  · cases h; simp [State.branchIf_pc, State.zeroTest_iff]
  · cases h; simp [State.branchIf_pc, State.negTest]
  · cases h; rfl

/-- From a RUNNING state that meets the invariant, a step advances `pc` without overflow, or leaves it in range. -/
theorem step_pc_of_running {s t : State} (hinv : s.Inv) (hrun : s.status = .running) (h : step s = .next t) :
    (signed t.pc = signed s.pc + 1 ∧ t.halted = false) ∨ (0 ≤ signed t.pc ∧ signed t.pc < s.prog.length) := by
  rcases step_next h with ⟨hterm, -⟩ | ⟨w, -, -, -, hexec⟩
  · exact absurd hrun hterm
  have ⟨_, hlen, _⟩ := hinv
  obtain ⟨hnot, hrange⟩ := State.status_running.1 hrun
  rcases exec_pc_cases hexec with ⟨hi, hpc⟩ | ⟨imm, -, htarget, hpc⟩ | ⟨-, hpc⟩ <;> rw [hpc]
  · refine .inl ⟨State.signed_pc_add_one hinv hrun, Bool.eq_false_iff.2 fun ht => ?_⟩
    rcases (exec_halted_iff hexec).1 ht with hs | hhalt
    · simp [hnot] at hs
    · exact hi hhalt
  · obtain ⟨hlow, hhigh⟩ := (State.targetValid_iff _ _).1 htarget
    rw [State.emitTrace_prog] at hhigh
    have hfits : imm < Config.memCells := lt_of_lt_of_le hhigh (by exact_mod_cast hlen)
    rw [signed_wrap_of_fits (immFits_of_bounds hlow hfits)]
    exact .inr ⟨hlow, hhigh⟩
  · exact .inr hrange

/-- Settles O47: a `pc` that is not in range after the step was advanced, and from the last index. -/
theorem onlyFallingOffLeavesProgram : Obligations.OnlyFallingOffLeavesProgram := by
  intro s t hinv hrun h hout
  obtain ⟨hhalted, hrange⟩ := State.status_outOfRange.1 hout
  obtain ⟨-, hlow, hhigh⟩ := State.status_running.1 hrun
  rw [step_prog h] at hrange
  rcases step_pc_of_running hinv hrun h with ⟨hpc, -⟩ | hin
  · exact ⟨by omega, by omega, hhalted⟩
  · exact absurd hin hrange

/-! The state invariant. -/

theorem exec_mem_wf {i : Instr} {s t : State} (hs : s.mem.wf) (h : exec i s = .next t) : t.mem.wf := by
  cases exec_cases h with
  | wroteCell _ _ _ a => exact Memory.wf_write a.isLt _ hs
  | reported => rw [State.advance_mem, State.emitMalformed_mem]; exact hs
  | advanced | wroteReg | jumped | halted => exact hs

theorem step_inv {s t : State} (hinv : s.Inv) (h : step s = .next t) : t.Inv := by
  rcases step_next h with ⟨-, rfl⟩ | ⟨w, hrun, -, -, hexec⟩
  · exact hinv
  have ⟨hmem, hlen, _⟩ := hinv
  obtain ⟨-, hlow, hhigh⟩ := State.status_running.1 hrun
  have hprog : t.progLen = s.prog.length := congrArg List.length (step_prog h)
  rw [State.Inv, hprog]
  refine ⟨exec_mem_wf (s := s.emitTrace w) hmem hexec, hlen, ?_⟩
  rcases step_pc_of_running hinv hrun h with ⟨hpc, hnot⟩ | ⟨hlow', hhigh'⟩
  · exact ⟨by omega, by omega, by simp [hnot]⟩
  · exact ⟨hlow', hhigh'.le, fun _ => hhigh'⟩

/-- Settles O14: memory by `exec_mem_wf`, the bounds of `pc` by `step_pc_of_running`. -/
theorem stepKeepsInv : Obligations.StepKeepsInv := fun _ _ => step_inv

end Sys2Proof.Machine
end

section
/-! PROOFS of the family spec/40_execution_cycle.md, one instruction: at most one location written (R98), and the skip
of an invalid operand (R97). -/

namespace Sys2Proof.Machine

/-- Settles O20, along the six shapes of a next state. -/
theorem atMostOneLocationWritten : Obligations.AtMostOneLocationWritten := by
  intro i s t h
  cases exec_cases h with
  | advanced | jumped | halted => exact .inl ⟨rfl, rfl⟩
  | reported => exact .inl ⟨State.emitMalformed_regs s, State.emitMalformed_mem s⟩
  | wroteReg ra d v hi hd => exact .inr (.inl ⟨ra, d, hi, hd, rfl, fun j hj => s.reg_setReg_ne hj.symm v⟩)
  | wroteCell ra imm r a hi hr ha =>
    exact .inr (.inr ⟨ra, imm, r, a, hi, hr, ha, rfl, Memory.read_write_self _ _ _,
      fun b hb => Memory.read_write_ne hb.symm _ _⟩)

/-! An operand that resolves to nothing leaves the advance alone, for each shape of instruction. -/

section InvalidOperand

variable (s : State) {ra rb rc : RegField} {imm : Int}

theorem State.writeDest_of_invalid (v : Word) (h : regIndex ra = none) : s.writeDest ra v = s.advance := by
  simp [State.writeDest, h]

theorem State.loadCell_of_invalid (h : regIndex ra = none ∨ addrIndex imm = none) : s.loadCell ra imm = s.advance := by
  rcases State.loadCell_cases s ra imm with ⟨d, a, hd, ha, -⟩ | ⟨-, e⟩
  · simp [hd, ha] at h
  · exact e

theorem State.storeCell_of_invalid (h : regIndex ra = none ∨ addrIndex imm = none) :
    s.storeCell ra imm = s.advance := by
  rcases State.storeCell_cases s ra imm with ⟨r, a, hr, ha, -⟩ | ⟨-, e⟩
  · simp [hr, ha] at h
  · exact e

theorem State.unary_of_invalid (h : regIndex ra = none ∨ regIndex rb = none) : s.unary ra rb = s.advance := by
  rcases State.unary_cases s ra rb with ⟨d, a, hd, ha, -⟩ | ⟨-, e⟩
  · simp [hd, ha] at h
  · exact e

theorem State.binary_of_invalid (f : Word → Word → Word)
    (h : regIndex ra = none ∨ regIndex rb = none ∨ regIndex rc = none) : s.binary f ra rb rc = s.advance := by
  rcases State.binary_cases s f ra rb rc with ⟨d, a, b, hd, ha, hb, -⟩ | ⟨-, e⟩
  · simp [hd, ha, hb] at h
  · exact e

theorem State.branchIf_of_invalid (c : Bool) (h : s.targetValid imm = false) : s.branchIf c imm = s.advance := by
  simp [State.branchIf, h]

end InvalidOperand

/-- Settles O23: the checks of R93 to R95 name the operands that resolve to nothing. -/
theorem invalidOperandSkips : Obligations.InvalidOperandSkips := by
  have reg {r : RegField} : 4 ≤ r.toNat ↔ regIndex r = none := regIndex_eq_none.symm
  have addr {a : Int} : a < 0 ∨ 32 ≤ a ↔ addrIndex a = none := addrIndex_eq_none.symm
  simp only [Obligations.InvalidOperandSkips, reg, addr]
  refine ⟨fun ra imm s h => ?_, fun ra imm s h => ⟨?_, ?_⟩, fun ra rb s h => ?_, fun ra rb rc s h => ⟨?_, ?_, ?_, ?_⟩,
    fun imm s h => ?_⟩
  · exact congrArg _ (s.writeDest_of_invalid _ h)
  · exact congrArg _ (s.loadCell_of_invalid h)
  · exact congrArg _ (s.storeCell_of_invalid h)
  · exact congrArg _ (s.unary_of_invalid h)
  iterate 4 exact congrArg _ (s.binary_of_invalid _ h)
  · have target : s.targetValid imm = false := by
      rw [Bool.eq_false_iff, ne_eq, State.targetValid_iff]
      omega
    exact ⟨congrArg _ (s.branchIf_of_invalid _ target), congrArg _ (s.branchIf_of_invalid _ target),
      congrArg _ (s.branchIf_of_invalid _ target)⟩

end Sys2Proof.Machine
end

section
/-! PROOFS of the family spec/40_execution_cycle.md, the run loop (R99 to R101). -/

namespace Sys2Proof.Machine

theorem run_succ_of_running {s t : State} (n : Nat) (hrun : s.status = .running) (h : step s = .next t) :
    run (n + 1) s = run n t := by
  simp [run, hrun, h]

theorem run_of_terminal {s : State} (n : Nat) (h : s.terminal) : run n s = .next s := by
  cases n with
  | zero => rfl
  | succ n =>
    unfold run
    split
    · next hrun => exact absurd hrun h
    · rfl
    · rfl

theorem run_add {n : Nat} {s t : State} (m : Nat) (h : run n s = .next t) : run (n + m) s = run m t := by
  induction n generalizing s with
  | zero => cases h; rw [Nat.zero_add]
  | succ n ih =>
    by_cases hrun : s.status = .running
    · obtain ⟨u, hu⟩ := step_total s
      rw [run_succ_of_running n hrun hu] at h
      rw [Nat.succ_add, run_succ_of_running (n + m) hrun hu, ih h]
    · rw [run_of_terminal _ hrun] at h
      cases h
      rw [run_of_terminal _ hrun, run_of_terminal _ hrun]

/-- Settles O46. -/
theorem runEndsAtFirstTerminalState : Obligations.RunEndsAtFirstTerminalState :=
  ⟨fun _ => rfl, fun n _ _ => run_succ_of_running n, fun n _ => run_of_terminal n, fun _ m _ _ => run_add m,
    fun _ m _ _ h hterm => (run_add m h).trans (run_of_terminal m hterm)⟩

/-- A step of a RUNNING core traces one entry, so the entries of a run that goes on count its steps (R92). -/
theorem run_trace_length {n : Nat} {s t : State} (h : run n s = .next t) (ht : t.status = .running) :
    t.trace.length = s.trace.length + n := by
  induction n generalizing s with
  | zero => cases h; rfl
  | succ n ih =>
    by_cases hrun : s.status = .running
    · obtain ⟨u, hu⟩ := step_total s
      obtain ⟨w, hfetch, -⟩ := State.fetch_of_running hrun
      rw [run_succ_of_running n hrun hu] at h
      rw [ih h, step_trace hu, State.tracePulse_of_running hrun hfetch, List.length_append, Option.toList_some,
        List.length_singleton]
      omega
    · rw [run_of_terminal _ hrun] at h
      cases h
      exact absurd ht hrun

/-- Settles O13: the step by `step_of_running`, the count by `run_trace_length`. -/
theorem eachStepTracesOneFetch : Obligations.EachStepTracesOneFetch := by
  refine ⟨fun s hrun => ?_, fun s t hterm h => ?_, fun n s t => run_trace_length⟩
  · obtain ⟨w, -, hw⟩ := State.fetch_of_running hrun
    obtain ⟨t, ht⟩ := exec_total (decode w) (s.emitTrace w)
    have hstep := step_of_running hrun hw
    exact ⟨w, t, hw, hstep, hstep.trans ht, exec_trace ht⟩
  · rw [step_of_terminal hterm] at h
    cases h
    rfl

/-- Settles O45: seeding changes memory alone, so `pc = 0` is past the end of the empty program. -/
theorem emptyProgramRunsZeroSteps : Obligations.EmptyProgramRunsZeroSteps := by
  intro pairs s h
  obtain ⟨-, rfl⟩ := State.seedMemory_next h
  obtain ⟨m, hm⟩ := State.writeSeeds_frame pairs State.reset
  rw [hm]
  have hout : State.status { State.reset with mem := m } = .outOfRange := rfl
  exact ⟨fun n => run_of_terminal n (by rw [State.terminal, hout]; nofun), hout, rfl, rfl, rfl, rfl⟩

end Sys2Proof.Machine
end

section
/-! PROOFS of the family spec/40_execution_cycle.md, the core under its host: the moves of the host, the seed port and
the turn keep the invariant of the system (R171, R175). -/

namespace Sys2Proof.Machine

/-- The four invariants that every step keeps. -/
structure State.Sound (s : State) : Prop where
  inv : s.Inv
  trace : s.TraceOfFetches
  diag : s.DiagOfTrace
  halt : s.HaltTraced

theorem State.Sound.step {s t : State} (hs : s.Sound) (h : step s = .next t) : t.Sound :=
  ⟨step_inv hs.inv h, step_traceOfFetches hs.trace h, step_diagOfTrace hs.diag h, step_haltTraced hs.halt h⟩

theorem State.Sound.mem_wf {s : State} (hs : s.Sound) : s.mem.wf := hs.inv.1

theorem State.Sound.progLen_le {s : State} (hs : s.Sound) : s.progLen ≤ Config.memCells := hs.inv.2.1

/-- Nothing has run since the last reset. -/
structure State.Fresh (s : State) : Prop where
  pc : s.pc = 0
  halted : s.halted = false
  trace : s.trace = []

/-- A core in which nothing has run is sound where its memory, its program and its events are. -/
theorem State.Fresh.sound {s : State} (hs : s.Fresh) (hmem : s.mem.wf) (hlen : s.progLen ≤ Config.memCells)
    (hdiag : s.diag = []) : s.Sound where
  inv := ⟨hmem, hlen, by simp [hs.pc], by simp [hs.pc], by simp [hs.halted]⟩
  trace := by simp [State.TraceOfFetches, hs.trace]
  diag := by rw [State.DiagOfTrace, hs.trace, hdiag]; rfl
  halt := by simp [State.HaltTraced, hs.halted]

theorem System.inv_iff {y : System} :
    y.Inv ↔ y.core.progLen ≤ Config.memCells ∧ (y.phase ≠ .reset →
      y.core.Sound ∧ (y.phase = .load → y.core.Fresh) ∧ (y.phase = .report → y.core.terminal)) := by
  refine and_congr_right fun _ => forall_congr' fun _ => ⟨?_, ?_⟩
  · rintro ⟨hinv, htrace, hdiag, hhalt, hload, hreport⟩
    exact ⟨⟨hinv, htrace, hdiag, hhalt⟩, fun hp => ⟨(hload hp).1, (hload hp).2.1, (hload hp).2.2⟩, hreport⟩
  · rintro ⟨hs, hload, hreport⟩
    exact ⟨hs.inv, hs.trace, hs.diag, hs.halt, fun hp => ⟨(hload hp).pc, (hload hp).halted, (hload hp).trace⟩, hreport⟩

theorem System.sound_of_inv {y : System} (hy : y.Inv) (hphase : y.phase ≠ .reset) : y.core.Sound :=
  ((System.inv_iff.1 hy).2 hphase).1

theorem System.fresh_of_inv {y : System} (hy : y.Inv) (hphase : y.phase = .load) : y.core.Fresh :=
  ((System.inv_iff.1 hy).2 (by simp [hphase])).2.1 hphase

/-- What the loader writes, in the LOAD phase: a program that fits and a memory in its canonical form. -/
theorem System.inv_of_loaded {y z : System} {p : List InstrWord} {m : Memory} (hy : y.Inv) (hphase : y.phase = .load)
    (hz : z.phase = .load) (hcore : z.core = { y.core with prog := p, mem := m }) (hlen : p.length ≤ Config.memCells)
    (hmem : m.wf) : z.Inv := by
  obtain ⟨hpc, hhalted, htrace⟩ := System.fresh_of_inv hy hphase
  have hfresh : z.core.Fresh := by rw [hcore]; exact ⟨hpc, hhalted, htrace⟩
  have hdiag : z.core.diag = [] := by
    have hd : y.core.diag = malformedOf y.core.trace := (System.sound_of_inv hy (by simp [hphase])).diag
    rw [hcore, hd, htrace]
    rfl
  have hlen' : z.core.progLen ≤ Config.memCells := by rw [hcore]; exact hlen
  exact System.inv_iff.2 ⟨hlen', fun _ => ⟨hfresh.sound (by rw [hcore]; exact hmem) hlen' hdiag, fun _ => hfresh,
    by simp [hz]⟩⟩

theorem System.hostMove_inv {y z : System} {m : HostMove} (hy : y.Inv) (h : y.hostMove m = .next z) : z.Inv := by
  have hlen : y.core.progLen ≤ Config.memCells := (System.inv_iff.1 hy).1
  have hsound (hphase : y.phase = .load) : y.core.Sound := System.sound_of_inv hy (by simp [hphase])
  unfold System.hostMove at h
  split at h
  · cases h
    have hfresh : y.core.resetAgain.Fresh := ⟨rfl, rfl, rfl⟩
    exact System.inv_iff.2 ⟨hlen, fun _ => ⟨hfresh.sound Memory.wf_nil hlen rfl, fun _ => hfresh, nofun⟩⟩
  · next words hphase =>
    obtain ⟨-, s, hs, rfl⟩ := System.loadOnce_next h
    obtain ⟨rfl, hfits⟩ := State.loadProgram_next hs
    exact System.inv_of_loaded hy hphase hphase rfl hfits (hsound hphase).mem_wf
  · next prefixes lines hphase =>
    obtain ⟨-, s, hs, rfl⟩ := System.loadOnce_next h
    obtain ⟨words, rfl, hfits⟩ := State.loadSource_next hs
    exact System.inv_of_loaded hy hphase hphase rfl hfits (hsound hphase).mem_wf
  · next pairs hphase =>
    obtain ⟨-, -, rfl⟩ := System.seedOnce_next h
    obtain ⟨m, hm⟩ := State.writeSeeds_frame pairs y.core
    have hm' : m.wf := by simpa [hm] using State.writeSeeds_wf pairs y.core (hsound hphase).mem_wf
    exact System.inv_of_loaded hy hphase hphase hm hlen hm'
  · next hphase =>
    cases h
    exact System.inv_iff.2 ⟨hlen, fun _ => ⟨hsound hphase, nofun, nofun⟩⟩
  · cases h

theorem System.seedPort_inv {y z : System} {we : Bool} {addr : BitVec 5} {data : Word} (hy : y.Inv)
    (h : y.seedPort we addr data = .next z) : z.Inv := by
  rcases System.seedPort_next h with ⟨-, rfl⟩ | ⟨-, hphase, cells, -, rfl⟩
  · exact hy
  · have hsound : y.core.Sound := System.sound_of_inv hy (by simp [hphase])
    exact System.inv_of_loaded hy hphase hphase rfl hsound.progLen_le (Memory.wf_write addr.isLt data hsound.mem_wf)

/-! The turn of the system (R171, R174). -/

theorem System.tick_of_running {y : System} {t : State} (hphase : y.phase = .run) (hrun : y.core.status = .running)
    (h : step y.core = .next t) : y.tick = .next { y with core := t } := by
  simp [System.tick, hphase, hrun, h, System.withCore]

theorem System.tick_of_terminal {y : System} (hphase : y.phase = .run) (hterm : y.core.terminal) :
    y.tick = .next { y with phase := .report } := by
  unfold System.tick
  rw [hphase]
  cases hs : y.core.status with
  | running => exact absurd hs hterm
  | halted | outOfRange => rfl

theorem System.tick_of_not_run {y : System} (hphase : y.phase ≠ .run) : y.tick = .next y := by
  unfold System.tick
  cases hp : y.phase with
  | run => exact absurd hp hphase
  | reset | load | report => rfl

theorem System.tick_inv {y z : System} (hy : y.Inv) (h : y.tick = .next z) : z.Inv := by
  by_cases hphase : y.phase = .run
  · have hsound : y.core.Sound := System.sound_of_inv hy (by simp [hphase])
    by_cases hrun : y.core.status = .running
    · obtain ⟨t, ht⟩ := step_total y.core
      rw [System.tick_of_running hphase hrun ht] at h
      cases h
      have ht' := hsound.step ht
      exact System.inv_iff.2 ⟨ht'.progLen_le, fun _ => ⟨ht', by simp [hphase], by simp [hphase]⟩⟩
    · rw [System.tick_of_terminal hphase hrun] at h
      cases h
      exact System.inv_iff.2 ⟨hsound.progLen_le, fun _ => ⟨hsound, nofun, fun _ => hrun⟩⟩
  · rw [System.tick_of_not_run hphase] at h
    cases h
    exact hy

/-- Settles O53: the three forms of a turn, then the invariant for each way the system can move. -/
theorem systemInvariantKept : Obligations.SystemInvariantKept :=
  ⟨fun _ _ => System.tick_of_running, fun _ => System.tick_of_terminal, fun _ => System.tick_of_not_run,
    fun _ _ _ => System.hostMove_inv, fun _ _ _ _ _ => System.seedPort_inv, fun _ _ => System.tick_inv⟩

end Sys2Proof.Machine
end

section
/-! PROOFS of the family spec/41_data_movement.md: LOAD in its two forms, STORE and MOVE (R110 to R113). With an invalid
operand each of them is a case of `invalidOperandSkips`. -/

namespace Sys2Proof.Machine

theorem exec_loadLit_of_valid (s : State) {ra : RegField} {d : Fin Config.numRegs} (imm : Int)
    (hd : regIndex ra = some d) : exec (.loadLit ra imm) s = .next (s.setReg d (wrap imm)).advance := by
  simp [exec, execLoadLit, State.writeDest, hd]

theorem exec_move_of_valid (s : State) {ra rb : RegField} {d a : Fin Config.numRegs} (hd : regIndex ra = some d)
    (ha : regIndex rb = some a) : exec (.move ra rb) s = .next (s.setReg d (s.reg a)).advance := by
  simp [exec, execMove, State.unary, hd, ha]

/-- Only a STORE to a cell changes what the cell holds. -/
theorem exec_cell_of_not_store {i : Instr} {s t : State} {a : Fin Config.memCells} (h : exec i s = .next t)
    (hi : ∀ ra, i ≠ .store ra (a : Nat)) : t.mem.read a = s.mem.read a := by
  cases exec_cases h with
  | advanced | wroteReg | jumped | halted => rfl
  | reported => rw [State.advance_mem, State.emitMalformed_mem]
  | wroteCell ra imm r c hstore _ hc =>
    have hne : (c : Nat) ≠ a := fun e => hi ra (by rw [hstore, addrIndex_eq_some.1 hc, e])
    exact Memory.read_write_ne hne s.mem _

/-- Settles O25: the cells that persist by `exec_cell_of_not_store`. -/
theorem loadMemoryEffect : Obligations.LoadMemoryEffect := by
  obtain ⟨-, invalid, -⟩ := invalidOperandSkips
  refine ⟨fun ra imm s => ⟨rfl, fun d a hd ha => ?_, fun h => (invalid ra imm s h).1⟩,
    fun _ => rfl, fun i s t a => exec_cell_of_not_store, by decide⟩
  exact exec_loadMem_of_valid s (regIndex_eq_some.2 hd) (addrIndex_eq_some.2 ha)

/-- Settles O26: the memory after the STORE is the one with the addressed cell written. -/
theorem storeEffect : Obligations.StoreEffect := by
  obtain ⟨-, invalid, -⟩ := invalidOperandSkips
  refine ⟨fun ra imm s => ⟨rfl, fun r a hr ha => ?_, fun h => (invalid ra imm s h).2⟩, by decide⟩
  exact ⟨s.mem.write a (s.reg r), exec_store_of_valid s (regIndex_eq_some.2 hr) (addrIndex_eq_some.2 ha),
    Memory.read_write_self s.mem a _, fun b hb => Memory.read_write_ne hb.symm s.mem _⟩

/-- Settles O24: a literal of 32 bits is its own `wrap`. -/
theorem loadLiteralEffect : Obligations.LoadLiteralEffect := by
  obtain ⟨invalid, -⟩ := invalidOperandSkips
  refine ⟨fun ra imm s => ⟨rfl, fun d hd => ?_, invalid ra imm s, fun hlow hhigh => ?_⟩, by decide⟩
  · exact exec_loadLit_of_valid s imm (regIndex_eq_some.2 hd)
  · have fits : immFits imm = true := by simp [immFits, hlow, hhigh]
    exact signed_wrap_of_fits fits

/-- Settles O27: the read of the second register comes before the write of the first, also where the two are one. -/
theorem moveEffect : Obligations.MoveEffect := by
  obtain ⟨-, -, invalid, -⟩ := invalidOperandSkips
  refine ⟨fun ra rb s => ⟨rfl, fun d a hd ha => ?_, invalid ra rb s⟩, by decide⟩
  exact exec_move_of_valid s (regIndex_eq_some.2 hd) (regIndex_eq_some.2 ha)

end Sys2Proof.Machine
end

section
/-! PROOFS of the family spec/42_arithmetic_logic.md: ADD, SUB, AND and OR (R120 to R123), the laws of integer arithmetic
(R124) and the add-subtract inverse law (R125). With an invalid operand each instruction is a case of
`invalidOperandSkips`. -/

namespace Sys2Proof.Machine

section ValidOperands

variable (s : State) {ra rb rc : RegField} {d a b : Fin Config.numRegs}

/-- The one shape of the four instructions: with three valid registers the first is `f` of the old values of the
others. -/
theorem State.binary_of_valid (f : Word → Word → Word) (hd : ra.toNat = d) (ha : rb.toNat = a) (hb : rc.toNat = b) :
    s.binary f ra rb rc = (s.setReg d (f (s.reg a) (s.reg b))).advance := by
  simp [State.binary, regIndex_eq_some.2 hd, regIndex_eq_some.2 ha, regIndex_eq_some.2 hb]

theorem exec_add_of_valid (hd : ra.toNat = d) (ha : rb.toNat = a) (hb : rc.toNat = b) :
    exec (.add ra rb rc) s = .next (s.setReg d (aluAdd (s.reg a) (s.reg b))).advance :=
  congrArg _ (s.binary_of_valid aluAdd hd ha hb)

theorem exec_sub_of_valid (hd : ra.toNat = d) (ha : rb.toNat = a) (hb : rc.toNat = b) :
    exec (.sub ra rb rc) s = .next (s.setReg d (aluSub (s.reg a) (s.reg b))).advance :=
  congrArg _ (s.binary_of_valid aluSub hd ha hb)

end ValidOperands

/-- The signed and the unsigned reading of a word are congruent modulo `2^32` (R124). -/
theorem signed_sub_toNat_emod (v : Word) : (signed v - v.toNat) % 2 ^ 32 = 0 :=
  (wrap_eq_wrap_iff _ _).1 (by rw [wrap_signed, wrap, BitVec.ofInt_natCast, BitVec.ofNat_toNat, BitVec.setWidth_eq])

/-- Settles O42: a result is `wrap` of the exact one, and `wrap` does not tell the two readings of the operands apart. -/
theorem arithmeticWraps : Obligations.ArithmeticWraps := by
  refine ⟨fun x y => ?_, by decide⟩
  have hx := signed_sub_toNat_emod x
  have hy := signed_sub_toNat_emod y
  exact ⟨(wrapIsUniqueCongruentValue _ _).1 rfl, (wrapIsUniqueCongruentValue _ _).1 rfl,
    (wrap_eq_wrap_iff _ _).2 (by omega), (wrap_eq_wrap_iff _ _).2 (by omega),
    fun k => ⟨BitVec.getLsbD_and, BitVec.getLsbD_or⟩⟩

/-- The subtraction undoes the addition, with or without overflow in the sum (R125). -/
theorem aluSub_aluAdd_cancel (x y : Word) : aluSub (aluAdd x y) y = x := by
  rw [aluSub_eq, aluAdd_eq, BitVec.add_sub_cancel]

/-- Settles O43: the SUB reads the sum that the ADD left in `R0`, and `R2`, which the ADD did not write. -/
theorem addSubInverseLaw : Obligations.AddSubInverseLaw := by
  intro s
  have add : exec (.add 0 1 2) s = .next (s.setReg 0 (aluAdd (s.reg 1) (s.reg 2))).advance :=
    exec_add_of_valid s rfl rfl rfl
  have sub (t : State) : exec (.sub 0 0 2) t = .next (t.setReg 0 (aluSub (t.reg 0) (t.reg 2))).advance :=
    exec_sub_of_valid t rfl rfl rfl
  refine ⟨_, _, add, sub _, ?_⟩
  simpa [aluSub_aluAdd_cancel] using eq_comm

/-- Settles O28: both source registers are read before the destination is written, also where they are one. -/
theorem addEffect : Obligations.AddEffect := by
  obtain ⟨-, -, -, invalid, -⟩ := invalidOperandSkips
  refine ⟨fun ra rb rc s => ⟨rfl, fun d a b hd ha hb => ?_, fun h => (invalid ra rb rc s h).1⟩, by decide⟩
  exact exec_add_of_valid s hd ha hb

/-- SUB as a compare: a difference that fits keeps its sign (R121). -/
theorem signed_wrap_sub_neg_iff {x y : Word} (hlow : -(2 ^ 31) ≤ signed x - signed y)
    (hhigh : signed x - signed y ≤ 2 ^ 31 - 1) : signed (wrap (signed x - signed y)) < 0 ↔ signed x < signed y := by
  have fits : immFits (signed x - signed y) = true := by simp [immFits, hlow, hhigh]
  rw [signed_wrap_of_fits fits, sub_neg]

/-- Settles O29: the effect as for ADD, the compare by `signed_wrap_sub_neg_iff`. -/
theorem subEffect : Obligations.SubEffect := by
  obtain ⟨-, -, -, invalid, -⟩ := invalidOperandSkips
  refine ⟨fun ra rb rc s => ⟨rfl, fun d a b hd ha hb => ?_, fun h => ?_⟩, fun x y => signed_wrap_sub_neg_iff,
    by decide⟩
  · exact exec_sub_of_valid s hd ha hb
  · obtain ⟨-, hsub, -⟩ := invalid ra rb rc s h
    exact hsub

/-- Settles O30: the value written is the conjunction or the disjunction of the two words. -/
theorem bitwiseEffect : Obligations.BitwiseEffect := by
  obtain ⟨-, -, -, invalid, -⟩ := invalidOperandSkips
  refine ⟨fun ra rb rc s => ⟨rfl, rfl, fun d a b hd ha hb => ⟨?_, ?_⟩, fun h => ?_⟩, by decide, by decide⟩
  · exact ⟨s.reg a &&& s.reg b, congrArg _ (s.binary_of_valid aluAnd hd ha hb), fun k _ => BitVec.getLsbD_and⟩
  · exact ⟨s.reg a ||| s.reg b, congrArg _ (s.binary_of_valid aluOr hd ha hb), fun k _ => BitVec.getLsbD_or⟩
  · obtain ⟨-, -, hand, hor⟩ := invalid ra rb rc s h
    exact ⟨hand, hor⟩

end Sys2Proof.Machine
end

section
/-! PROOFS of the family spec/43_control_transfer.md: the three branches (R130 to R133), and the frame that they share
with NOP, HALT and the unrecognized instruction (R140 to R142). -/

namespace Sys2Proof.Machine

/-! A branch writes `pc` and nothing else, whatever its condition. -/

theorem State.branchIf_eq (s : State) (c : Bool) (imm : Int) :
    s.branchIf c imm =
      { s with pc := if c = true ∧ 0 ≤ imm ∧ imm < s.prog.length then wrap imm else s.pc + 1 } := by
  rw [← State.branchIf_pc]
  rcases State.branchIf_cases s c imm with ⟨-, -, e⟩ | ⟨-, e⟩ <;> rw [e] <;> rfl

/-- Negative is bit 31 (R133). -/
theorem State.negTest_iff (s : State) : s.negTest = true ↔ (s.reg 0).getLsbD 31 = true := by
  rw [State.negTest, decide_eq_true_eq, ← BitVec.msb_eq_getLsbD_last (s.reg 0), BitVec.msb_eq_toInt, decide_eq_true_eq]

/-- Settles O31: the condition of BRANCH is true. -/
theorem branchEffect : Obligations.BranchEffect := by
  refine ⟨fun imm s => ⟨rfl, congrArg Host.Outcome.next ?_⟩, by decide⟩
  simp only [State.branchIf_eq, true_and]

/-- Settles O32: the condition of BEZERO is the zero test. -/
theorem branchIfZeroEffect : Obligations.BranchIfZeroEffect := by
  refine ⟨fun imm s => ⟨rfl, congrArg Host.Outcome.next ?_⟩, by decide⟩
  simp only [State.branchIf_eq, State.zeroTest_iff]

/-- Settles O33: the condition of BNEG is the sign test. -/
theorem branchIfNegativeEffect : Obligations.BranchIfNegativeEffect := by
  refine ⟨fun imm s => ⟨rfl, congrArg Host.Outcome.next ?_⟩, by decide⟩
  simp only [State.branchIf_eq, State.negTest_iff]

/-- Settles O39: the one location an instruction can write is a destination register's or a STORE's. -/
theorem controlAndSystemFrame : Obligations.ControlAndSystemFrame := by
  intro i s t hdest hstore h
  have unwritten : t.regs = s.regs ∧ t.mem = s.mem := by
    rcases atMostOneLocationWritten i s t h with same | ⟨ra, -, hra, -⟩ | ⟨ra, imm, -, -, rfl, -⟩
    · exact same
    · rw [hdest] at hra; cases hra
    · exact absurd rfl hstore
  obtain ⟨hregs, hmem⟩ := unwritten
  refine ⟨hregs, fun b => by rw [hmem], exec_prog h, exec_trace h, fun hhalt => ?_, fun hunrec => ?_⟩
  · have hne : i ≠ .halt := by rintro rfl; exact hhalt rfl
    rw [Bool.eq_iff_iff, exec_halted_iff h, or_iff_left hne]
  · rw [exec_diag h, if_neg hunrec]

end Sys2Proof.Machine
end

section
/-! PROOFS of the family spec/44_system.md: NOP, HALT and the unrecognized instruction (R140 to R142), each with its
step, and the diagnostic channel that the unrecognized instructions alone write (R150 to R152). -/

namespace Sys2Proof.Machine

/-- Settles O16: a step's event is the unrecognized part of the one entry that it traces. -/
theorem stepKeepsDiagOfTrace : Obligations.StepKeepsDiagOfTrace := fun _ _ => step_diagOfTrace

/-! Fetch, decode and execute of a word that the core has fetched. -/

theorem State.fetch_eq_some {s : State} {w : InstrWord} :
    s.fetch = some w ↔ (0 ≤ signed s.pc ∧ signed s.pc < s.prog.length) ∧ s.prog[s.pc.toNat]? = some w := by
  rw [State.fetch, Option.ite_none_right_eq_some, State.pcInRange, Bool.and_eq_true, decide_eq_true_eq,
    decide_eq_true_eq, State.progLen_eq]

theorem step_of_fetch {s : State} {w : InstrWord} (hrun : s.status = .running) (hfetch : s.fetch = some w) :
    step s = exec (decode w) (s.emitTrace w) :=
  step_of_running hrun (State.fetch_eq_some.1 hfetch).2

theorem decode_of_opcode_nop {w : InstrWord} (h : opcodeField w = 0xC#4) : decode w = .nop := by
  rw [decode_eq_instr, h]; rfl

/-- Where `pc` names a word, an unrecognized instruction reports that word and advances, in each of its rows (R142). -/
theorem exec_of_unrec {i : Instr} {s : State} {w : InstrWord} (hi : i.kind = .unrec) (hfetch : s.fetch = some w) :
    exec i s = .next { s with pc := s.pc + 1, diag := s.diag ++ [{ pc := s.pc, word := w }] } := by
  have report : s.emitMalformed = { s with diag := s.diag ++ [{ pc := s.pc, word := w }] } := by
    simp [State.emitMalformed, hfetch]
  have row : exec i s = .next s.emitMalformed.advance := by
    rcases Instr.kind_eq_unrec_iff.1 hi with rfl | rfl | rfl <;> rfl
  rw [row, report]
  rfl

/-- The increment of a word either is exact or wraps to a negative value. -/
theorem signed_add_one (v : Word) : signed (v + 1) = signed v + 1 ∨ signed (v + 1) < 0 := by
  have hbmod : signed (v + 1) = (signed v + 1).bmod (2 ^ 32) := BitVec.toInt_add v 1
  have hlow : -(2 ^ 31) ≤ signed v := BitVec.le_toInt v
  have hhigh : signed v < 2 ^ 31 := BitVec.toInt_lt
  rw [hbmod, Int.bmod_def]
  omega

/-- The advance from the last index ends the run, also where the increment wraps (R140, R142). -/
theorem State.advance_status_of_last {s : State} (hrun : s.status = .running)
    (hlast : signed s.pc + 1 = s.prog.length) : s.advance.status = .outOfRange := by
  obtain ⟨hhalted, -⟩ := State.status_running.1 hrun
  rw [State.status_outOfRange, State.advance_pc, State.advance_prog, ← hlast]
  exact ⟨hhalted, by have := signed_add_one s.pc; omega⟩

/-- Settles O34: the step traces its word and advances. -/
theorem nopEffect : Obligations.NopEffect := by
  refine ⟨fun _ => rfl, rfl, by decide, fun _ => decode_of_opcode_nop, fun s w hrun hfetch hop => ?_⟩
  refine ⟨_, rfl, ?_, State.advance_status_of_last (s := s.emitTrace w) hrun⟩
  rw [step_of_fetch hrun hfetch, decode_of_opcode_nop hop]
  rfl

/-- Settles O35: a halted core is in a terminal state, where every run stays. -/
theorem haltEffect : Obligations.HaltEffect := by
  refine ⟨fun _ => rfl, fun s hhalted => ?_, rfl, by decide, fun w => (decode_eq_halt_iff w).2,
    fun s w hrun hfetch hop => ?_⟩
  · have hstatus : s.status = .halted := State.status_halted.2 hhalted
    exact ⟨hstatus, fun n => run_of_terminal n (by rw [State.terminal, hstatus]; nofun)⟩
  · rw [step_of_fetch hrun hfetch, (decode_eq_halt_iff w).2 hop]
    rfl

/-- Settles O36: the step traces its word, and `exec_of_unrec` reports the same fetch. -/
theorem unrecognizedEffect : Obligations.UnrecognizedEffect := by
  refine ⟨fun i s w hi hlow hhigh hw => ?_, kind_decode_eq_unrec_iff, rfl, rfl, rfl, by decide,
    fun s w hrun hfetch hu => ?_⟩
  · exact exec_of_unrec (Instr.kind_eq_unrec_iff.2 hi) (State.fetch_eq_some.2 ⟨⟨hlow, hhigh⟩, hw⟩)
  · refine ⟨_, rfl, ?_, State.advance_status_of_last (s := s.emitTrace w) hrun⟩
    rw [step_of_fetch hrun hfetch]
    exact exec_of_unrec hu ((s.fetch_emitTrace w).trans hfetch)

end Sys2Proof.Machine
end

section
/-! PROOFS of the family spec/60_exceptions.md: there is no fault outcome and no refusal (R150 to R154). -/

namespace Sys2Proof.Machine

/-- Settles O12: `exec` and `step` are total, and `step` in a terminal state too, where the core holds. -/
theorem everyStepHasNextState : Obligations.EveryStepHasNextState :=
  ⟨exec_total, fun s _ => step_total s⟩

end Sys2Proof.Machine
end

section
/-! PROOFS of the family spec/70_reset_and_hazards.md: what the loader writes (R172, R173). -/

namespace Sys2Proof.Machine

/-- Settles O50: the load compares the length of the program with `M`. -/
theorem programLoad : Obligations.ProgramLoad :=
  fun _ _ => ⟨fun hfits => if_pos hfits, fun hlong => if_neg hlong.not_ge⟩

/-! The loader's duty (R173). -/

theorem seedsValid_iff (pairs : List (Int × Int)) :
    seedsValid pairs = true ↔
      (∀ p ∈ pairs, 0 ≤ p.1 ∧ p.1 < 32 ∧ -(2 ^ 31) ≤ p.2 ∧ p.2 ≤ 2 ^ 31 - 1) ∧
        pairs.Pairwise (fun p q => p.1 ≠ q.1) := by
  simp only [seedsValid, addrValid, immFits, Bool.and_eq_true, List.all_eq_true, decide_eq_true_eq, and_assoc,
    List.Nodup, List.pairwise_map]
  rfl

/-! What a cell holds after seeding. -/

/-- The first pair is written, where it names a cell, and then the others. -/
theorem State.writeSeeds_cons (s : State) (p : Int × Int) (rest : List (Int × Int)) :
    s.writeSeeds (p :: rest) = ((addrIndex p.1).elim s fun a => s.setCell a (wrap p.2)).writeSeeds rest := by
  rw [State.writeSeeds]
  cases addrIndex p.1 <;> rfl

theorem State.read_writeSeeds_of_unnamed {pairs : List (Int × Int)} {b : Nat} (hb : ∀ p ∈ pairs, p.1 ≠ b) (s : State) :
    (s.writeSeeds pairs).mem.read b = s.mem.read b := by
  induction pairs generalizing s with
  | nil => rfl
  | cons p rest ih =>
    obtain ⟨hp, hrest⟩ := List.forall_mem_cons.1 hb
    rw [State.writeSeeds_cons, ih hrest]
    cases ha : addrIndex p.1 with
    | none => rfl
    | some a =>
      have hab : (a : Nat) ≠ b := fun e => hp (e ▸ addrIndex_eq_some.1 ha)
      exact Memory.read_write_ne hab s.mem _

/-- With distinct addresses no later pair writes over a cell. -/
theorem State.cell_writeSeeds_of_mem {pairs : List (Int × Int)} {p : Int × Int} {a : Fin Config.memCells}
    (hdistinct : pairs.Pairwise (fun p q => p.1 ≠ q.1)) (hp : p ∈ pairs) (ha : addrIndex p.1 = some a) (s : State) :
    (s.writeSeeds pairs).cell a = wrap p.2 := by
  induction pairs generalizing s with
  | nil => cases hp
  | cons q rest ih =>
    obtain ⟨hq, hrest⟩ := List.pairwise_cons.1 hdistinct
    rw [State.writeSeeds_cons]
    rcases List.mem_cons.1 hp with rfl | hp
    · have hlater : ∀ r ∈ rest, r.1 ≠ (a : Nat) := fun r hr e => hq r hr ((addrIndex_eq_some.1 ha).trans e.symm)
      rw [ha, State.cell, State.read_writeSeeds_of_unnamed hlater]
      exact Memory.read_write_self s.mem a _
    · exact ih hrest hp _

/-- Settles O51: a value that fits is its own `wrap`, and `seedsValid` is the loader's duty. -/
theorem seedingWritesNamedCells : Obligations.SeedingWritesNamedCells := by
  refine fun s pairs => ⟨fun hrange hdistinct => ?_, fun hbad => if_neg (mt (seedsValid_iff pairs).1 hbad)⟩
  obtain ⟨m, hm⟩ := State.writeSeeds_frame pairs s
  have hmem : m = (s.writeSeeds pairs).mem := by rw [hm]
  refine ⟨m, ?_, fun p hp => ?_, fun b hb => hmem ▸ State.read_writeSeeds_of_unnamed hb s⟩
  · rw [State.seedMemory, if_pos ((seedsValid_iff pairs).2 ⟨hrange, hdistinct⟩), hm]
  · obtain ⟨hlow, hhigh, hmin, hmax⟩ := hrange p hp
    have haddr : addrIndex p.1 = some ⟨p.1.toNat, (Int.toNat_lt hlow).2 hhigh⟩ :=
      addrIndex_eq_some.2 (Int.toNat_of_nonneg hlow).symm
    have hcell : m.read p.1.toNat = wrap p.2 := hmem ▸ State.cell_writeSeeds_of_mem hdistinct hp haddr s
    rw [hcell]
    exact signed_wrap_of_fits (by simp [immFits, hmin, hmax])

end Sys2Proof.Machine
end

section
/-! PROOFS of the family spec/30_encoding.md section 9: the disassembler (R73), as the inverse of the assembler on the
tokens it prints. -/

namespace Sys2Proof.Machine

/-! Printed numbers: a digit string has the value of its number, and the resolver reads a printed number back (R65). -/

theorem isDigitChar_of_mem_natDigits {c : Char} {fuel n : Nat} (hc : c ∈ natDigits fuel n) : isDigitChar c = true := by
  induction fuel generalizing n with
  | zero => cases hc
  | succ fuel ih =>
    rw [natDigits] at hc
    split at hc
    · next hn => rw [List.mem_singleton.1 hc]; exact isDigitChar_ofNat hn
    · rcases List.mem_append.1 hc with hc | hc
      · exact ih hc
      · rw [List.mem_singleton.1 hc]; exact isDigitChar_ofNat (Nat.mod_lt n (by decide))

theorem natDigits_succ_ne_nil (fuel n : Nat) : natDigits (fuel + 1) n ≠ [] := by
  rw [natDigits]
  split <;> simp

theorem digitsValue_append_singleton (digits : List Char) (c : Char) :
    digitsValue (digits ++ [c]) = 10 * digitsValue digits + digitValue c := by
  simp [digitsValue]

theorem digitsValue_natDigits {fuel n : Nat} (h : n < 10 ^ fuel) : digitsValue (natDigits fuel n) = n := by
  induction fuel generalizing n with
  | zero => exact (Nat.lt_one_iff.1 h).symm
  | succ fuel ih =>
    rw [natDigits]
    split
    · next hn => simp [digitsValue, digitChar, digitValue_ofNat hn]
    · rw [digitsValue_append_singleton, ih (by omega), digitChar, digitValue_ofNat (Nat.mod_lt n (by decide))]
      omega

/-- A string of digits has no sign to drop. -/
theorem splitSign_of_digits {digits : List Char} (h : ∀ c ∈ digits, isDigitChar c = true) :
    splitSign digits = (false, digits) := by
  cases digits with
  | nil => rfl
  | cons c rest =>
    have hc : isDigitChar c = true := h c List.mem_cons_self
    rw [splitSign, if_neg (by rintro rfl; cases hc), if_neg (by rintro rfl; cases hc)]

theorem splitSign_numberToken (z : Int) : splitSign (numberToken z) = (decide (z < 0), natDigits 11 z.natAbs) := by
  rw [numberToken]
  split
  · next hz => simp [splitSign, hz]
  · next hz => rw [splitSign_of_digits fun _ => isDigitChar_of_mem_natDigits, decide_eq_false hz]

@[simp] theorem isLiteral_numberToken (z : Int) : isLiteral (numberToken z) = true := by
  simpa [isLiteral, splitSign_numberToken, natDigits_succ_ne_nil] using fun _ => isDigitChar_of_mem_natDigits

theorem litValue_numberToken {z : Int} (h : immFits z = true) : litValue (numberToken z) = z := by
  simp only [immFits, Config.minInt, Config.maxInt, Bool.and_eq_true, decide_eq_true_eq] at h
  simp only [litValue, splitSign_numberToken, digitsValue_natDigits (fuel := 11) (n := z.natAbs) (by omega),
    decide_eq_true_eq]
  split <;> omega

/-! The characters of a printed number. -/

/-- A capital letter, as R6 has the entries of `ADDR_PREFIXES`. -/
abbrev IsCapital (c : Char) : Prop := 0x41 ≤ c.toNat ∧ c.toNat ≤ 0x5A

theorem isDigitChar_iff (c : Char) : isDigitChar c = true ↔ 0x30 ≤ c.toNat ∧ c.toNat ≤ 0x39 := by
  simp [isDigitChar]

/-- A number is printed with `-` and digits. -/
theorem toNat_of_mem_numberToken {c : Char} {z : Int} (hc : c ∈ numberToken z) :
    c.toNat = 0x2D ∨ 0x30 ≤ c.toNat ∧ c.toNat ≤ 0x39 := by
  rw [numberToken] at hc
  split at hc
  · refine (List.mem_cons.1 hc).imp ?_ fun hd => (isDigitChar_iff c).1 (isDigitChar_of_mem_natDigits hd)
    rintro rfl
    rfl
  · exact .inr ((isDigitChar_iff c).1 (isDigitChar_of_mem_natDigits hc))

theorem not_capital_of_mem_numberToken {c : Char} {z : Int} (hc : c ∈ numberToken z) : ¬ IsCapital c := by
  have := toNat_of_mem_numberToken hc
  omega

/-- The characters from `$` to the grave accent are neither whitespace nor `#` nor lower-case letters. -/
theorem cleanToken_of_toNat {t : Token} (hne : t ≠ [])
    (h : ∀ c ∈ t, 0x24 ≤ c.toNat ∧ c.toNat ≤ 0x60) : CleanToken t := by
  refine ⟨hne, fun c hc => ?_⟩
  obtain ⟨hlow, hhigh⟩ := h c hc
  refine ⟨?_, by rintro rfl; exact absurd hlow (by decide), by omega⟩
  rw [← Bool.not_eq_true, isSpaceChar_iff]
  simp only [List.mem_cons, List.not_mem_nil, or_false]
  omega

theorem numberToken_ne_nil (z : Int) : numberToken z ≠ [] := fun h => by
  simpa [h, isLiteral, splitSign] using isLiteral_numberToken z

/-! Address and target tokens, with a letter of `ADDR_PREFIXES` in front and without (R67, R73). -/

section Prefixes

variable {prefixes : List Char} {imm : Int}

/-- No number begins with a capital letter, so a number printed without one of the prefixes has none to drop. -/
theorem dropPrefix_numberToken (hcap : ∀ c ∈ prefixes, IsCapital c) :
    dropPrefix prefixes (numberToken imm) = numberToken imm := by
  unfold dropPrefix
  split
  · next h => exact h.symm
  · next c rest h =>
    have hc : c ∉ prefixes := fun hmem => not_capital_of_mem_numberToken (h ▸ List.mem_cons_self) (hcap c hmem)
    rw [if_neg hc, h]

theorem addrOperand_of_dropPrefix {t : Token} (hdrop : dropPrefix prefixes t = numberToken imm)
    (hfits : immFits imm = true) : addrOperand prefixes t = imm := by
  simp [addrOperand, hdrop, litValue_numberToken hfits, hfits]

theorem addrOperand_numberToken (hcap : ∀ c ∈ prefixes, IsCapital c) (hfits : immFits imm = true) :
    addrOperand prefixes (numberToken imm) = imm :=
  addrOperand_of_dropPrefix (dropPrefix_numberToken hcap) hfits

theorem addrOperand_prefixed {p : Char} (hp : p ∈ prefixes) (hfits : immFits imm = true) :
    addrOperand prefixes (p :: numberToken imm) = imm :=
  addrOperand_of_dropPrefix (if_pos hp) hfits

/-- A capital letter in front makes the second operand of a LOAD an address and no literal (R69). -/
theorem isLiteral_prefixed {p : Char} (hp : IsCapital p) (t : Token) : isLiteral (p :: t) = false := by
  have hminus : p ≠ '-' := by rintro rfl; exact absurd hp (by decide)
  have hplus : p ≠ '+' := by rintro rfl; exact absurd hp (by decide)
  have hdigit : isDigitChar p = false := by
    rw [← Bool.not_eq_true, isDigitChar_iff]
    omega
  simp [isLiteral, splitSign, hminus, hplus, hdigit]

theorem loadAddrToken_eq_some {t : Token} :
    loadAddrToken prefixes imm = some t ↔ ∃ p ∈ prefixes.head?, t = p :: numberToken imm := by
  cases prefixes <;> simp [loadAddrToken, eq_comm]

end Prefixes

/-! Register tokens (R66, R73). -/

/-- A printed register token names a register, or it is the `R9` of the field 15. -/
theorem registerToken_eq_some {r : RegField} {t : Token} (h : registerToken r = some t) :
    (∃ k : Fin Config.numRegs, t = ['R', digitChar k] ∧ r = BitVec.ofNat 4 k) ∨ t = ['R', '9'] ∧ r = 0xF#4 := by
  unfold registerToken at h
  split at h
  · next hr => exact .inl ⟨⟨r.toNat, of_decide_eq_true hr⟩, (Option.some.inj h).symm, by simp⟩
  · split at h
    · next hr => exact .inr ⟨(Option.some.inj h).symm, hr⟩
    · cases h

theorem regOperand_of_registerToken {r : RegField} {t : Token} (h : registerToken r = some t) : regOperand t = r := by
  rcases registerToken_eq_some h with ⟨k, rfl, rfl⟩ | ⟨rfl, rfl⟩
  · exact regOperand_registerToken k []
  · rfl

theorem isSome_registerToken (r : RegField) : (registerToken r).isSome = true ↔ r.toNat < 4 ∨ r = 0xF#4 := by
  revert r; decide

/-! The tokens of a printed line are clean, so the Tokenizer finds them again (R62). -/

@[simp] theorem Mnemonic.cleanToken_spelling (m : Mnemonic) : CleanToken m.spelling :=
  cleanToken_of_toNat (by cases m <;> nofun) (by cases m <;> simp [Mnemonic.spelling])

theorem cleanToken_registerLetter {d : Char} (hd : isDigitChar d = true) : CleanToken ['R', d] := by
  have := (isDigitChar_iff d).1 hd
  exact cleanToken_of_toNat (List.cons_ne_nil _ _)
    (List.forall_mem_cons.2 ⟨by decide, List.forall_mem_singleton.2 (by omega)⟩)

theorem cleanToken_of_registerToken {r : RegField} {t : Token} (h : registerToken r = some t) : CleanToken t := by
  rcases registerToken_eq_some h with ⟨k, rfl, -⟩ | ⟨rfl, -⟩
  · exact cleanToken_registerLetter (isDigitChar_ofNat (Nat.lt_trans k.isLt (by decide)))
  · exact cleanToken_registerLetter rfl

theorem toNat_bounds_of_mem_numberToken {c : Char} {z : Int} (hc : c ∈ numberToken z) :
    0x24 ≤ c.toNat ∧ c.toNat ≤ 0x60 := by
  have := toNat_of_mem_numberToken hc
  omega

@[simp] theorem cleanToken_numberToken (z : Int) : CleanToken (numberToken z) :=
  cleanToken_of_toNat (numberToken_ne_nil z) fun _ => toNat_bounds_of_mem_numberToken

theorem cleanToken_prefixed {p : Char} (hp : IsCapital p) (z : Int) : CleanToken (p :: numberToken z) :=
  cleanToken_of_toNat (List.cons_ne_nil _ _)
    (List.forall_mem_cons.2 ⟨by omega, fun _ => toNat_bounds_of_mem_numberToken⟩)

/-! The line of an instruction assembles back to it. -/

/-- The tokens make a line of the instruction: the Tokenizer finds them as they stand, and the assembler reads the
instruction from them. -/
structure Spells (prefixes : List Char) (ts : List Token) (i : Instr) : Prop where
  clean : ∀ t ∈ ts, CleanToken t
  assembles : assembleTokens prefixes ts = some i

theorem Spells.assemble_joinTokens {prefixes : List Char} {ts : List Token} {i : Instr} (h : Spells prefixes ts i) :
    assemble prefixes (joinTokens ts) = some (encodeCanonical i) := by
  rw [assemble, assembleInstr, tokenize_joinTokens h.clean, h.assembles, Option.map_some]

theorem aluTokens_eq_some {m : Mnemonic} {ra rb rc : RegField} {ts : List Token} (h : aluTokens m ra rb rc = some ts) :
    ∃ a b c, registerToken ra = some a ∧ registerToken rb = some b ∧ registerToken rc = some c ∧
      ts = [m.spelling, a, b, c] := by
  unfold aluTokens at h
  split at h
  · next a b c ha hb hc => exact ⟨a, b, c, ha, hb, hc, (Option.some.inj h).symm⟩
  · cases h

theorem spells_instrTokens {prefixes : List Char} {i : Instr} {ts : List Token} (hcap : ∀ c ∈ prefixes, IsCapital c)
    (hw : i.wellFormed = true) (h : instrTokens prefixes i = some ts) : Spells prefixes ts i := by
  cases i with
  | loadLit ra imm =>
    obtain ⟨r, hr, rfl⟩ := Option.map_eq_some_iff.1 h
    refine ⟨by simp [cleanToken_of_registerToken hr], ?_⟩
    change assembleLoad prefixes r (numberToken imm) = _
    have hfits : immFits imm = true := hw
    simp [assembleLoad, litValue_numberToken hfits, hfits, regOperand_of_registerToken hr]
  | loadMem ra imm =>
    simp only [instrTokens] at h
    split at h
    · next r a hr ha =>
      obtain ⟨p, hp, rfl⟩ := loadAddrToken_eq_some.1 ha
      obtain rfl := Option.some.inj h
      have hmem : p ∈ prefixes := List.mem_of_mem_head? hp
      refine ⟨by simp [cleanToken_of_registerToken hr, cleanToken_prefixed (hcap p hmem)], ?_⟩
      change assembleLoad prefixes r (p :: numberToken imm) = _
      simp [assembleLoad, isLiteral_prefixed (hcap p hmem), addrOperand_prefixed hmem hw,
        regOperand_of_registerToken hr]
    · cases h
  | store ra imm =>
    obtain ⟨r, hr, rfl⟩ := Option.map_eq_some_iff.1 h
    refine ⟨by simp [cleanToken_of_registerToken hr], ?_⟩
    change some (Instr.store (regOperand r) (addrOperand prefixes (numberToken imm))) = _
    rw [regOperand_of_registerToken hr, addrOperand_numberToken hcap hw]
  | move ra rb =>
    simp only [instrTokens] at h
    split at h
    · next a b ha hb =>
      obtain rfl := Option.some.inj h
      refine ⟨by simp [cleanToken_of_registerToken ha, cleanToken_of_registerToken hb], ?_⟩
      rw [← regOperand_of_registerToken ha, ← regOperand_of_registerToken hb]
      rfl
    · cases h
  | add ra rb rc | sub ra rb rc | and ra rb rc | or ra rb rc =>
    obtain ⟨a, b, c, ha, hb, hc, rfl⟩ := aluTokens_eq_some h
    refine ⟨by simp [cleanToken_of_registerToken ha, cleanToken_of_registerToken hb,
      cleanToken_of_registerToken hc], ?_⟩
    rw [← regOperand_of_registerToken ha, ← regOperand_of_registerToken hb, ← regOperand_of_registerToken hc]
    rfl
  | branch imm | bezero imm | bneg imm =>
    obtain rfl := Option.some.inj h
    refine ⟨by simp, ?_⟩
    nth_rw 2 [← addrOperand_numberToken hcap hw]
    rfl
  | nop | halt | unrec0 =>
    obtain rfl := Option.some.inj h
    exact ⟨by simp, rfl⟩
  | unrecE | unrecF => cases h

/-! Which words have a line. -/

theorem isSome_aluTokens (m : Mnemonic) (ra rb rc : RegField) :
    (aluTokens m ra rb rc).isSome = true ↔
      (registerToken ra).isSome = true ∧ (registerToken rb).isSome = true ∧ (registerToken rc).isSome = true := by
  unfold aluTokens
  cases registerToken ra <;> cases registerToken rb <;> cases registerToken rc <;> simp

/-- An instruction of a row that `Encode` writes has a line iff each register field it uses has a token and, for the
memory form of LOAD, `ADDR_PREFIXES` is not empty. -/
theorem isSome_instrTokens (prefixes : List Char) {o : Op} (hE : o.code ≠ 0xE#4) (hF : o.code ≠ 0xF#4)
    (ra rb rc : RegField) (imm : Int) :
    (instrTokens prefixes (o.instr ra rb rc imm)).isSome = true ↔
      (o.kind.format.usesRa = true → (registerToken ra).isSome = true) ∧
      (o.kind.format.usesRb = true → (registerToken rb).isSome = true) ∧
      (o.kind.format.usesRc = true → (registerToken rc).isSome = true) ∧
      (o.kind = .loadm → prefixes ≠ []) := by
  cases o with
  | loadMem =>
    cases hr : registerToken ra <;> cases prefixes <;>
      simp [Op.instr, instrTokens, loadAddrToken, hr, Op.kind, Kind.format, Format.usesRa, Format.usesRb, Format.usesRc]
  | move =>
    cases hr : registerToken ra <;> cases hr' : registerToken rb <;>
      simp [Op.instr, instrTokens, hr, hr', Op.kind, Kind.format, Format.usesRa, Format.usesRb, Format.usesRc]
  | loadLit | store | add | sub | and | or | branch | bezero | bneg | nop | halt | unrec0 =>
    simp [Op.instr, instrTokens, isSome_aluTokens, Op.kind, Kind.format, Format.usesRa, Format.usesRb, Format.usesRc]
  | unrecE => exact absurd rfl hE
  | unrecF => exact absurd rfl hF

theorem disassemble_eq_some {prefixes : List Char} {w : InstrWord} {line : Line} :
    disassemble prefixes w = some line ↔
      encodeCanonical (decode w) = w ∧ ∃ ts, instrTokens prefixes (decode w) = some ts ∧ joinTokens ts = line := by
  unfold disassemble
  split <;> simp [*]

theorem isSome_disassemble (prefixes : List Char) (w : InstrWord) :
    (disassemble prefixes w).isSome = true ↔
      encodeCanonical (decode w) = w ∧ (instrTokens prefixes (decode w)).isSome = true := by
  simp [Option.isSome_iff_exists, disassemble_eq_some]

/-- Settles O60: a word with a line is the canonical word of its instruction, whose line spells it. -/
theorem disassemblyAssemblesBack : Obligations.DisassemblyAssemblesBack := by
  refine fun prefixes hcap => ⟨fun w line h => ?_, fun w => ?_⟩
  · obtain ⟨hw, ts, hts, rfl⟩ := disassemble_eq_some.1 h
    rw [(spells_instrTokens hcap (decodeYieldsWellFormed w) hts).assemble_joinTokens, hw]
  · obtain ⟨-, -, hcanonical⟩ := canonicalEncoderRoundTrip
    have hkind : (decode w).kind = (Op.ofCode (opcodeField w)).kind := by rw [Instr.kind, op_decode]
    rw [isSome_disassemble, hcanonical, and_assoc, and_assoc, hkind]
    refine and_congr_right fun _ => and_congr_right fun hE => and_congr_right fun hF => ?_
    rw [decode_eq_instr, isSome_instrTokens prefixes (by rwa [Op.code_ofCode]) (by rwa [Op.code_ofCode])]
    simp only [isSome_registerToken]

end Sys2Proof.Machine
end

section
/-! PROOFS of the family spec/70_reset_and_hazards.md, the phases: which move of the host each phase allows and what the
move does there (R171, R175), the ports that are moves (R176), and the report (R174). -/

namespace Sys2Proof.Machine

/-! The host's moves, each in the LOAD phase, and any but reset outside it (R175). -/

section Moves

variable {y : System}

theorem System.hostMove_of_not_load {m : HostMove} (hm : m ≠ .reset) (hphase : y.phase ≠ .load) :
    y.hostMove m = .refused .outOfPhase := by
  unfold System.hostMove
  split
  case h_1 => exact absurd rfl hm
  case h_6 => rfl
  all_goals next hload => exact absurd hload hphase

/-- A move other than reset that is not refused was made in the LOAD phase. -/
theorem System.phase_of_hostMove {z : System} {m : HostMove} (hm : m ≠ .reset) (h : y.hostMove m = .next z) :
    y.phase = .load := by
  by_contra hphase
  rw [System.hostMove_of_not_load hm hphase] at h
  cases h

theorem System.hostMove_start (hphase : y.phase = .load) : y.hostMove .start = .next { y with phase := .run } := by
  simp [System.hostMove, hphase]

theorem System.hostMove_loadWords (hphase : y.phase = .load) (words : List InstrWord) :
    y.hostMove (.loadWords words) = y.loadOnce (y.core.loadProgram words) := by
  simp [System.hostMove, hphase]

theorem System.hostMove_loadSource (hphase : y.phase = .load) (prefixes : List Char) (lines : List Line) :
    y.hostMove (.loadSource prefixes lines) = y.loadOnce (y.core.loadSource prefixes lines) := by
  simp [System.hostMove, hphase]

theorem System.hostMove_seed (hphase : y.phase = .load) (pairs : List (Int × Int)) :
    y.hostMove (.seed pairs) = y.seedOnce pairs := by
  simp [System.hostMove, hphase]

/-! The one load (R171, R172): the first completes or is refused as the core's own load is, a second is refused. -/

theorem System.loadOnce_of_next (hfirst : y.loaded = false) (s : State) :
    y.loadOnce (.next s) = .next { y with loaded := true, core := s } := by
  simp [System.loadOnce, hfirst, System.withCore]

theorem System.loadOnce_of_refused (hfirst : y.loaded = false) (r : Refusal) :
    y.loadOnce (.refused r) = .refused r := by
  simp [System.loadOnce, hfirst, System.withCore]

theorem System.loadOnce_of_loaded (hloaded : y.loaded = true) (o : Host.Outcome State Fault Refusal) :
    y.loadOnce o = .refused .alreadyLoaded := if_pos hloaded

/-- The load of source text is the load of the words its lines assemble to. -/
theorem State.loadSource_of_some {s : State} {prefixes : List Char} {lines : List Line} {words : List InstrWord}
    (h : lines.mapM (assemble prefixes) = some words) : s.loadSource prefixes lines = s.loadProgram words := by
  simp [State.loadSource, assembleLines, h]

theorem State.loadSource_of_none {s : State} {prefixes : List Char} {lines : List Line}
    (h : lines.mapM (assemble prefixes) = none) : s.loadSource prefixes lines = .refused .literalOutOfRange := by
  simp [State.loadSource, assembleLines, h]

theorem System.loadOnce_of_fits (hfirst : y.loaded = false) {words : List InstrWord} (hfits : words.length ≤ 32) :
    y.loadOnce (y.core.loadProgram words) =
      .next { y with loaded := true, core := { y.core with prog := words } } := by
  rw [State.loadProgram, if_pos hfits, System.loadOnce_of_next hfirst]

theorem System.loadOnce_of_too_long (hfirst : y.loaded = false) {words : List InstrWord} (hlong : 32 < words.length) :
    y.loadOnce (y.core.loadProgram words) = .refused .programTooLong := by
  rw [State.loadProgram, if_neg hlong.not_ge, System.loadOnce_of_refused hfirst]

/-! The one seeding (R171, R173), with a whole set or pulse by pulse. -/

theorem System.seedOnce_first (hfirst : y.seeding = .none) (pairs : List (Int × Int)) :
    y.seedOnce pairs = { y with seeding := .set }.withCore (y.core.seedMemory pairs) := by
  simp [System.seedOnce, hfirst]

theorem System.seedOnce_of_seeded (hseeded : y.seeding ≠ .none) (pairs : List (Int × Int)) :
    y.seedOnce pairs = .refused .alreadySeeded := by
  unfold System.seedOnce
  split
  · next h => exact absurd h hseeded
  · rfl
  · rfl

variable (addr : BitVec 5) (data : Word)

theorem System.seedPort_in_load (hphase : y.phase = .load) : y.seedPort true addr data = y.seedInLoad addr data := by
  simp [System.seedPort, hphase]

theorem System.seedPort_of_not_load (hphase : y.phase ≠ .load) :
    y.seedPort true addr data = .refused .outOfPhase := by
  unfold System.seedPort
  rw [if_pos rfl]
  cases hp : y.phase with
  | load => exact absurd hp hphase
  | reset | run | report => rfl

/-- A pulse goes on with the seeding that the pulses before it began. -/
theorem System.seedInLoad_eq_seedCell {cells : List (BitVec 5)}
    (h : (y.seeding = .none ∧ cells = []) ∨ y.seeding = .port cells) :
    y.seedInLoad addr data = y.seedCell cells addr data := by
  rcases h with ⟨hnone, rfl⟩ | hport
  · simp [System.seedInLoad, hnone]
  · simp [System.seedInLoad, hport]

theorem System.seedCell_of_new {cells : List (BitVec 5)} (hnew : addr ∉ cells) : ∃ m,
    y.seedCell cells addr data =
      .next { y with seeding := .port (addr :: cells), core := { y.core with mem := m } } ∧
    m.read addr.toNat = data ∧ ∀ b : Nat, b ≠ addr.toNat → m.read b = y.core.mem.read b :=
  ⟨y.core.mem.write addr.toNat data, if_neg hnew, Memory.read_write_self _ _ _,
    fun _ hb => Memory.read_write_ne hb.symm _ _⟩

/-! A loader move that completes, read backwards. -/

/-- It writes the program store or the memory, and no other state of the core. -/
theorem System.hostMove_loader_frame {z : System} {m : HostMove} (hreset : m ≠ .reset) (hstart : m ≠ .start)
    (h : y.hostMove m = .next z) : z.phase = .load ∧ z.core.regs = y.core.regs ∧ z.core.pc = y.core.pc ∧
      z.core.halted = y.core.halted ∧ z.core.trace = y.core.trace ∧ z.core.diag = y.core.diag := by
  have hphase : y.phase = .load := System.phase_of_hostMove hreset h
  cases m with
  | reset => exact absurd rfl hreset
  | start => exact absurd rfl hstart
  | loadWords words =>
    rw [System.hostMove_loadWords hphase] at h
    obtain ⟨-, s, hs, rfl⟩ := System.loadOnce_next h
    obtain ⟨rfl, -⟩ := State.loadProgram_next hs
    exact ⟨hphase, rfl, rfl, rfl, rfl, rfl⟩
  | loadSource prefixes lines =>
    rw [System.hostMove_loadSource hphase] at h
    obtain ⟨-, s, hs, rfl⟩ := System.loadOnce_next h
    obtain ⟨words, rfl, -⟩ := State.loadSource_next hs
    exact ⟨hphase, rfl, rfl, rfl, rfl, rfl⟩
  | seed pairs =>
    rw [System.hostMove_seed hphase] at h
    obtain ⟨-, -, rfl⟩ := System.seedOnce_next h
    obtain ⟨m, hm⟩ := State.writeSeeds_frame pairs y.core
    rw [hm]
    exact ⟨hphase, rfl, rfl, rfl, rfl, rfl⟩

/-- A load that completes is the first. -/
theorem System.loaded_of_loadOnce {z : System} {o : Host.Outcome State Fault Refusal} (h : y.loadOnce o = .next z) :
    y.loaded = false ∧ z.loaded = true := by
  obtain ⟨hfirst, s, -, rfl⟩ := System.loadOnce_next h
  exact ⟨hfirst, rfl⟩

theorem System.seeding_of_seedOnce {z : System} {pairs : List (Int × Int)} (h : y.seedOnce pairs = .next z) :
    y.seeding = .none ∧ z.seeding = .set := by
  obtain ⟨hfirst, -, rfl⟩ := System.seedOnce_next h
  exact ⟨hfirst, rfl⟩

/-! Reading in the REPORT phase (R174, R175). -/

theorem System.memRdata_of_not_report (hphase : y.phase ≠ .report) : y.memRdata addr = .refused .outOfPhase := by
  unfold System.memRdata
  cases hp : y.phase with
  | report => exact absurd hp hphase
  | reset | load | run => rfl

theorem System.readResults_of_not_report (hphase : y.phase ≠ .report) : y.readResults = .refused .outOfPhase := by
  unfold System.readResults
  cases hp : y.phase with
  | report => exact absurd hp hphase
  | reset | load | run => rfl

end Moves

/-- Settles O49: clause by clause, reset and then each move in the phase that allows it and outside that phase. -/
theorem hostMovesByPhase : Obligations.HostMovesByPhase := by
  refine ⟨fun _ => rfl, fun _ _ => System.hostMove_of_not_load, fun _ => System.hostMove_start, ?loadWords,
    ?loadSource, ?seed, ?pulse, fun _ _ _ => rfl, fun _ => ⟨rfl, rfl, rfl, rfl⟩,
    fun _ _ _ => System.hostMove_loader_frame, ?loadWordsOnce, ?loadSourceOnce, ?seedOnce, ?loadedTwice, ?seededTwice,
    fun _ addr data => System.seedPort_of_not_load addr data, ?readCell,
    fun _ addr => System.memRdata_of_not_report addr, ?readResults, fun _ => System.readResults_of_not_report⟩
  case loadWords =>
    intro y words hphase hfirst
    rw [System.hostMove_loadWords hphase]
    exact ⟨System.loadOnce_of_fits hfirst, System.loadOnce_of_too_long hfirst⟩
  case loadSource =>
    intro y prefixes lines hphase hfirst
    rw [System.hostMove_loadSource hphase]
    refine ⟨fun words h hfits => ?_, fun words h hlong => ?_, fun h => ?_⟩
    · rw [State.loadSource_of_some h, System.loadOnce_of_fits hfirst hfits]
    · rw [State.loadSource_of_some h, System.loadOnce_of_too_long hfirst hlong]
    · rw [State.loadSource_of_none h, System.loadOnce_of_refused hfirst]
  case seed =>
    intro y pairs hphase hfirst
    rw [System.hostMove_seed hphase, System.seedOnce_first hfirst]
    exact ⟨fun s hs => by rw [hs]; rfl, fun r hr => by rw [hr]; rfl⟩
  case pulse =>
    intro y addr data hphase
    rw [System.seedPort_in_load addr data hphase]
    refine ⟨fun cells h => ?_, fun hset => by simp [System.seedInLoad, hset]⟩
    rw [System.seedInLoad_eq_seedCell addr data h]
    exact ⟨System.seedCell_of_new addr data, fun hold => if_pos hold⟩
  case loadWordsOnce =>
    intro y z words h
    have hphase : y.phase = .load := System.phase_of_hostMove (m := .loadWords words) nofun h
    rw [System.hostMove_loadWords hphase] at h
    exact System.loaded_of_loadOnce h
  case loadSourceOnce =>
    intro y z prefixes lines h
    have hphase : y.phase = .load := System.phase_of_hostMove (m := .loadSource prefixes lines) nofun h
    rw [System.hostMove_loadSource hphase] at h
    exact System.loaded_of_loadOnce h
  case seedOnce =>
    intro y z pairs h
    have hphase : y.phase = .load := System.phase_of_hostMove (m := .seed pairs) nofun h
    rw [System.hostMove_seed hphase] at h
    exact System.seeding_of_seedOnce h
  case loadedTwice =>
    intro y hphase hloaded
    refine ⟨fun words => ?_, fun prefixes lines => ?_⟩
    · rw [System.hostMove_loadWords hphase, System.loadOnce_of_loaded hloaded]
    · rw [System.hostMove_loadSource hphase, System.loadOnce_of_loaded hloaded]
  case seededTwice =>
    intro y pairs hphase hseeded
    rw [System.hostMove_seed hphase, System.seedOnce_of_seeded hseeded]
  case readCell =>
    intro y addr hphase
    simp [System.memRdata, hphase]
  case readResults =>
    intro y hphase
    simp [System.readResults, hphase]

/-! The report (R174). -/

theorem State.toList_regs (s : State) : s.regs.toList = List.ofFn s.reg := by
  refine List.ext_getElem (by simp) fun i _ _ => ?_
  rw [List.getElem_ofFn, Vector.getElem_toList]
  rfl

/-- Settles O52: the register file is its four registers, the memory read at each index below `M`. -/
theorem reportInIndexOrder : Obligations.ReportInIndexOrder := by
  refine fun s => ⟨?registers, by simp [State.report], fun a ha => ?cell, rfl, rfl, rfl, rfl, rfl⟩
  case registers => exact s.toList_regs
  case cell => simp [State.report, ha]

end Sys2Proof.Machine
end

section
/-! PROOFS of two uses of the lemmas above: the worked encodings of spec/30_encoding.md section 6, and the step in a
terminal state (spec/40_execution_cycle.md R100). -/

namespace Sys2Proof.Machine

/-- Settles O7: each word is the pack of a row and its fields. -/
theorem workedEncodingsDecode : Obligations.WorkedEncodingsDecode :=
  ⟨decode_packWord .loadLit 0 0 0 5, decode_packWord .loadLit 1 0 0 0xFFFFFFFF#32, decode_packWord .loadMem 3 0 0 7,
    decode_packWord .store 2 0 0 10, decode_packWord .move 1 0 0 0, decode_packWord .sub 0 0 2 0,
    decode_packWord .and 3 1 2 0, decode_packWord .or 3 3 0 0, decode_packWord .add 15 0 1 0,
    decode_packWord .branch 0 0 0 0, decode_packWord .bezero 0 0 0 3, decode_packWord .bneg 0 0 0 0xFFFFFFFE#32,
    decode_packWord .nop 0 0 0 0, decode_packWord .halt 0 0 0 0, decode_packWord .unrec0 0 0 0 0⟩

/-- Settles O11: each of the three conditions shuts out the status RUNNING. -/
theorem terminalStateHolds : Obligations.TerminalStateHolds := by
  refine fun s h => step_of_terminal fun hrun => ?_
  obtain ⟨hhalted, hlow, hhigh⟩ := State.status_running.1 hrun
  rcases h with h | h | h
  · rw [hhalted] at h
    cases h
  · omega
  · omega

end Sys2Proof.Machine
end
